-- ==== Sys2Proof/Word.lean ====
section
/-! DEFINITION. The word types of the core (spec 00_scope.md R4, R5). -/

namespace Sys2Proof

/-- A memory byte, a general register, a timer: 8 bits (R4 `REG_W`, `TIMER_W`). -/
abbrev Byte := BitVec 8

/-- PC, I, a call-stack entry, an opcode word: 16 bits (R4 `PC_W`, `I_W`, `STACK_ENTRY_W`). -/
abbrev Word := BitVec 16

/-- The number of a general register, 0 to 15 (10_state.md R10): out of range cannot be written. -/
abbrev Reg := Fin 16

/-- Register 15, which is also the carry and borrow flag (10_state.md R11). -/
abbrev Reg.vf : Reg := 15

end Sys2Proof
end

