-- ==== Sys2Proof/Syntax.lean ====
section
/-! DEFINITION. The closed set of 35 instruction variants (spec 30_encoding.md R73), one constructor per
row of spec/opcode_table.json. -/

namespace Sys2Proof

/-- A decoded instruction variant with "exactly the operand fields of its format" (R63). An address
operand is held as the 16-bit word it is used at (`zext_16(nnn)`, R63) and a sprite count as a number;
`Instr.wf` says they fit their fields (log 12). The ignored nibbles of families 0, 5 and 9 are no operands
(R66, R71). -/
inductive Instr where
  /-- `cls`, 0.E0 (R161) -/
  | cls
  /-- `ret`, 0.EE (R104) -/
  | ret
  /-- `jmp nnn`, 1nnn (R101) -/
  | jmp (nnn : Word)
  /-- `call nnn`, 2nnn (R103) -/
  | call (nnn : Word)
  /-- `se vx, kk`, 3xkk (R105) -/
  | seVxKk (x : Reg) (kk : Byte)
  /-- `sne vx, kk`, 4xkk (R106) -/
  | sneVxKk (x : Reg) (kk : Byte)
  /-- `se vx, vy`, 5xy. (R107) -/
  | seVxVy (x y : Reg)
  /-- `ld vx, kk`, 6xkk (R120) -/
  | ldVxKk (x : Reg) (kk : Byte)
  /-- `add vx, kk`, 7xkk (R121) -/
  | addVxKk (x : Reg) (kk : Byte)
  /-- `ld vx, vy`, 8xy0 (R122) -/
  | ldVxVy (x y : Reg)
  /-- `or vx, vy`, 8xy1 (R123) -/
  | orVxVy (x y : Reg)
  /-- `and vx, vy`, 8xy2 (R124) -/
  | andVxVy (x y : Reg)
  /-- `xor vx, vy`, 8xy3 (R125) -/
  | xorVxVy (x y : Reg)
  /-- `add vx, vy`, 8xy4 (R126) -/
  | addVxVy (x y : Reg)
  /-- `sub vx, vy`, 8xy5 (R127) -/
  | subVxVy (x y : Reg)
  /-- `shr vx`, 8xy6 (R128); `y` is carried and unused (decision D12) -/
  | shrVx (x y : Reg)
  /-- `subn vx, vy`, 8xy7 (R129) -/
  | subnVxVy (x y : Reg)
  /-- `shl vx`, 8xyE (R130); `y` is carried and unused (decision D12) -/
  | shlVx (x y : Reg)
  /-- `sne vx, vy`, 9xy. (R108) -/
  | sneVxVy (x y : Reg)
  /-- `ld i, nnn`, Annn (R140) -/
  | ldI (nnn : Word)
  /-- `jmp v0, nnn`, Bnnn (R102) -/
  | jmpV0 (nnn : Word)
  /-- `rnd vx, kk`, Cxkk (R132) -/
  | rndVxKk (x : Reg) (kk : Byte)
  /-- `drw vx, vy, n`, Dxyn (R162) -/
  | drw (x y : Reg) (n : Nat)
  /-- `skp vx`, Ex9E (R109) -/
  | skpVx (x : Reg)
  /-- `sknp vx`, ExA1 (R110) -/
  | sknpVx (x : Reg)
  /-- `ld vx, dt`, Fx07 (R142) -/
  | ldVxDt (x : Reg)
  /-- `ld vx, k`, Fx0A (R163) -/
  | ldVxK (x : Reg)
  /-- `ld dt, vx`, Fx15 (R143) -/
  | ldDtVx (x : Reg)
  /-- `ld st, vx`, Fx18 (R144) -/
  | ldStVx (x : Reg)
  /-- `add i, vx`, Fx1E (R141) -/
  | addIVx (x : Reg)
  /-- `ld f, vx`, Fx29 (R164) -/
  | ldFVx (x : Reg)
  /-- `ld b, vx`, Fx33 (R145) -/
  | ldBVx (x : Reg)
  /-- `ld [i], vx`, Fx55 (R146) -/
  | ldMemVx (x : Reg)
  /-- `ld vx, [i]`, Fx65 (R147) -/
  | ldVxMem (x : Reg)
  /-- UNKNOWN, every word that matches no instruction (R165); it "carries no operand" (R70) -/
  | unknown
  deriving DecidableEq, Repr

end Sys2Proof
end

