-- ==== Sys2Proof/WellFormed.lean ====
section
/-! DEFINITION. Which terms of `Instr` an encoding exists for (spec 30_encoding.md R62): register numbers
and immediates fit by their types; an address must fit 12 bits and a count 4 bits. -/

namespace Sys2Proof

/-- An address operand fits the 12-bit field `nnn`: 0x000 to 0xFFF (R62). -/
def addressFits (nnn : Word) : Bool := nnn.toNat < 0x1000

/-- A count operand fits the 4-bit field `n`: 0 to 15 (R62). -/
def countFits (n : Nat) : Bool := n < 16

/-- Every operand of the instruction fits its field (R62). -/
def Instr.wf : Instr → Bool
  | .jmp nnn => addressFits nnn
  | .call nnn => addressFits nnn
  | .ldI nnn => addressFits nnn
  | .jmpV0 nnn => addressFits nnn
  | .drw _ _ n => countFits n
  | .cls => true
  | .ret => true
  | .seVxKk _ _ => true
  | .sneVxKk _ _ => true
  | .seVxVy _ _ => true
  | .ldVxKk _ _ => true
  | .addVxKk _ _ => true
  | .ldVxVy _ _ => true
  | .orVxVy _ _ => true
  | .andVxVy _ _ => true
  | .xorVxVy _ _ => true
  | .addVxVy _ _ => true
  | .subVxVy _ _ => true
  | .shrVx _ _ => true
  | .subnVxVy _ _ => true
  | .shlVx _ _ => true
  | .sneVxVy _ _ => true
  | .rndVxKk _ _ => true
  | .skpVx _ => true
  | .sknpVx _ => true
  | .ldVxDt _ => true
  | .ldVxK _ => true
  | .ldDtVx _ => true
  | .ldStVx _ => true
  | .addIVx _ => true
  | .ldFVx _ => true
  | .ldBVx _ => true
  | .ldMemVx _ => true
  | .ldVxMem _ => true
  | .unknown => true

end Sys2Proof
end

