-- ==== Sys2Proof/Decode.lean ====
section
/-! DEFINITION. Decoding two bytes into one of the 35 variants, total and never failing (spec
30_encoding.md R64 to R73), and, after it, the encoder written from the same table. -/

namespace Sys2Proof

/-! ### Operand fields (R62) -/

/-- The opcode word `op = byte1 ++ byte2`: `byte1`, at the lower address, is the high byte
(20_memory.md R41). -/
def opcodeWord (byte1 byte2 : Byte) : Word := byte1 ++ byte2

/-- `op[15:12]`, the primary family (R64 step 1). -/
def fieldFamily (op : Word) : BitVec 4 := op.extractLsb' 12 4

/-- `nnn = op[11:0]`, zero-extended to the 16 bits it is used at (R62, R63). -/
def fieldNnn (op : Word) : Word := (op.extractLsb' 0 12).setWidth 16

/-- `x = op[11:8]` (R62). -/
def fieldX (op : Word) : Reg := (op.extractLsb' 8 4).toFin

/-- `y = op[7:4]` (R62). -/
def fieldY (op : Word) : Reg := (op.extractLsb' 4 4).toFin

/-- `kk = op[7:0]`, also the sub-operation selector of families 0, E and F (R62, R64). -/
def fieldKk (op : Word) : Byte := op.extractLsb' 0 8

/-- `op[3:0]`, the count `n` of family D and the sub-operation selector of family 8 (R62, R64). -/
def fieldN (op : Word) : BitVec 4 := op.extractLsb' 0 4

/-! ### The decode algorithm (R64) -/

/-- Family 0: the selector is `byte2`; `op[11:8]` is not examined (R66). -/
def decodeFamily0 (op : Word) : Instr :=
  match (fieldKk op).toNat with
  | 0xE0 => .cls
  | 0xEE => .ret
  | _ => .unknown

/-- Family 8: the selector is `op[3:0]` (R67). -/
def decodeFamily8 (op : Word) : Instr :=
  match (fieldN op).toNat with
  | 0x0 => .ldVxVy (fieldX op) (fieldY op)
  | 0x1 => .orVxVy (fieldX op) (fieldY op)
  | 0x2 => .andVxVy (fieldX op) (fieldY op)
  | 0x3 => .xorVxVy (fieldX op) (fieldY op)
  | 0x4 => .addVxVy (fieldX op) (fieldY op)
  | 0x5 => .subVxVy (fieldX op) (fieldY op)
  | 0x6 => .shrVx (fieldX op) (fieldY op)
  | 0x7 => .subnVxVy (fieldX op) (fieldY op)
  | 0xE => .shlVx (fieldX op) (fieldY op)
  | _ => .unknown

/-- Family E: the selector is `byte2` (R68). -/
def decodeFamilyE (op : Word) : Instr :=
  match (fieldKk op).toNat with
  | 0x9E => .skpVx (fieldX op)
  | 0xA1 => .sknpVx (fieldX op)
  | _ => .unknown

/-- Family F: the selector is `byte2` (R69). -/
def decodeFamilyF (op : Word) : Instr :=
  match (fieldKk op).toNat with
  | 0x07 => .ldVxDt (fieldX op)
  | 0x0A => .ldVxK (fieldX op)
  | 0x15 => .ldDtVx (fieldX op)
  | 0x18 => .ldStVx (fieldX op)
  | 0x1E => .addIVx (fieldX op)
  | 0x29 => .ldFVx (fieldX op)
  | 0x33 => .ldBVx (fieldX op)
  | 0x55 => .ldMemVx (fieldX op)
  | 0x65 => .ldVxMem (fieldX op)
  | _ => .unknown

/-- The variant of an opcode word (R65). A family is a 4-bit value, so the last arm is never taken. -/
def decodeWord (op : Word) : Instr :=
  match (fieldFamily op).toNat with
  | 0x0 => decodeFamily0 op
  | 0x1 => .jmp (fieldNnn op)
  | 0x2 => .call (fieldNnn op)
  | 0x3 => .seVxKk (fieldX op) (fieldKk op)
  | 0x4 => .sneVxKk (fieldX op) (fieldKk op)
  | 0x5 => .seVxVy (fieldX op) (fieldY op)
  | 0x6 => .ldVxKk (fieldX op) (fieldKk op)
  | 0x7 => .addVxKk (fieldX op) (fieldKk op)
  | 0x8 => decodeFamily8 op
  | 0x9 => .sneVxVy (fieldX op) (fieldY op)
  | 0xA => .ldI (fieldNnn op)
  | 0xB => .jmpV0 (fieldNnn op)
  | 0xC => .rndVxKk (fieldX op) (fieldKk op)
  | 0xD => .drw (fieldX op) (fieldY op) (fieldN op).toNat
  | 0xE => decodeFamilyE op
  | 0xF => decodeFamilyF op
  | _ => .unknown

/-- `Decode(byte1, byte2)`: pure and total (R64, R72). -/
def decode (byte1 byte2 : Byte) : Instr := decodeWord (opcodeWord byte1 byte2)

/-- Why a list of bytes gives no instruction: only that it holds fewer than the two bytes every
instruction has (R60). Log 11. -/
inductive DecodeReject where
  /-- raised by `decodeBytes` on fewer than two bytes; safe, no instruction is that short -/
  | truncated
  deriving DecidableEq, Repr

/-- Decode the instruction at the head of a list of bytes, and what follows it. -/
def decodeBytes : List Byte → Except DecodeReject (Instr × List Byte)
  | byte1 :: byte2 :: rest => .ok (decode byte1 byte2, rest)
  | [_] => .error .truncated
  | [] => .error .truncated

/-! ### The encoder: the canonical word of each instruction (R61, R66, R71, R73) -/

/-- The 4-bit field that holds a register number. -/
def regField (r : Reg) : BitVec 4 := BitVec.ofFin r

/-- Format Z: family 0, ignored nibble 0, sub-operation byte (R61). -/
def wordZ (sub : Byte) : Word := 0x00#8 ++ sub

/-- Format A: family and address (R61). -/
def wordA (family : BitVec 4) (nnn : Word) : Word := family ++ nnn.setWidth 12

/-- Formats XK and XS: family, register, byte (R61). -/
def wordXK (family : BitVec 4) (x : Reg) (kk : Byte) : Word := (family ++ regField x) ++ kk

/-- Formats XY and XYN: family, two registers, nibble (R61). -/
def wordXY (family : BitVec 4) (x y : Reg) (low : BitVec 4) : Word :=
  (family ++ regField x) ++ (regField y ++ low)

/-- The canonical word of an instruction (R73). Of the 13872 UNKNOWN words the encoder writes
0x0000. Log 10. -/
def encodeWord : Instr → Word
  | .cls => wordZ 0xE0#8
  | .ret => wordZ 0xEE#8
  | .jmp nnn => wordA 0x1#4 nnn
  | .call nnn => wordA 0x2#4 nnn
  | .seVxKk x kk => wordXK 0x3#4 x kk
  | .sneVxKk x kk => wordXK 0x4#4 x kk
  | .seVxVy x y => wordXY 0x5#4 x y 0x0#4
  | .ldVxKk x kk => wordXK 0x6#4 x kk
  | .addVxKk x kk => wordXK 0x7#4 x kk
  | .ldVxVy x y => wordXY 0x8#4 x y 0x0#4
  | .orVxVy x y => wordXY 0x8#4 x y 0x1#4
  | .andVxVy x y => wordXY 0x8#4 x y 0x2#4
  | .xorVxVy x y => wordXY 0x8#4 x y 0x3#4
  | .addVxVy x y => wordXY 0x8#4 x y 0x4#4
  | .subVxVy x y => wordXY 0x8#4 x y 0x5#4
  | .shrVx x y => wordXY 0x8#4 x y 0x6#4
  | .subnVxVy x y => wordXY 0x8#4 x y 0x7#4
  | .shlVx x y => wordXY 0x8#4 x y 0xE#4
  | .sneVxVy x y => wordXY 0x9#4 x y 0x0#4
  | .ldI nnn => wordA 0xA#4 nnn
  | .jmpV0 nnn => wordA 0xB#4 nnn
  | .rndVxKk x kk => wordXK 0xC#4 x kk
  | .drw x y n => wordXY 0xD#4 x y (BitVec.ofNat 4 n)
  | .skpVx x => wordXK 0xE#4 x 0x9E#8
  | .sknpVx x => wordXK 0xE#4 x 0xA1#8
  | .ldVxDt x => wordXK 0xF#4 x 0x07#8
  | .ldVxK x => wordXK 0xF#4 x 0x0A#8
  | .ldDtVx x => wordXK 0xF#4 x 0x15#8
  | .ldStVx x => wordXK 0xF#4 x 0x18#8
  | .addIVx x => wordXK 0xF#4 x 0x1E#8
  | .ldFVx x => wordXK 0xF#4 x 0x29#8
  | .ldBVx x => wordXK 0xF#4 x 0x33#8
  | .ldMemVx x => wordXK 0xF#4 x 0x55#8
  | .ldVxMem x => wordXK 0xF#4 x 0x65#8
  | .unknown => 0x0000#16

/-- The high byte of a word, stored at the lower address (20_memory.md R41). -/
def highByte (op : Word) : Byte := op.extractLsb' 8 8

/-- The low byte of a word, stored at the higher address (20_memory.md R41). -/
def lowByte (op : Word) : Byte := op.extractLsb' 0 8

/-- A word as the two bytes memory holds it in (20_memory.md R41). -/
def wordBytes (op : Word) : List Byte := [highByte op, lowByte op]

/-- The bytes of an instruction, in the order they stand in memory. -/
def encode (i : Instr) : List Byte := wordBytes (encodeWord i)

/-! ### The opcode map as rows of mask and match (R73) -/

/-- The row of R73 a variant belongs to, as its mask and match; UNKNOWN has none. -/
def Instr.row : Instr → Option (Word × Word)
  | .cls => some (0xF0FF#16, 0x00E0#16)
  | .ret => some (0xF0FF#16, 0x00EE#16)
  | .jmp _ => some (0xF000#16, 0x1000#16)
  | .call _ => some (0xF000#16, 0x2000#16)
  | .seVxKk _ _ => some (0xF000#16, 0x3000#16)
  | .sneVxKk _ _ => some (0xF000#16, 0x4000#16)
  | .seVxVy _ _ => some (0xF000#16, 0x5000#16)
  | .ldVxKk _ _ => some (0xF000#16, 0x6000#16)
  | .addVxKk _ _ => some (0xF000#16, 0x7000#16)
  | .ldVxVy _ _ => some (0xF00F#16, 0x8000#16)
  | .orVxVy _ _ => some (0xF00F#16, 0x8001#16)
  | .andVxVy _ _ => some (0xF00F#16, 0x8002#16)
  | .xorVxVy _ _ => some (0xF00F#16, 0x8003#16)
  | .addVxVy _ _ => some (0xF00F#16, 0x8004#16)
  | .subVxVy _ _ => some (0xF00F#16, 0x8005#16)
  | .shrVx _ _ => some (0xF00F#16, 0x8006#16)
  | .subnVxVy _ _ => some (0xF00F#16, 0x8007#16)
  | .shlVx _ _ => some (0xF00F#16, 0x800E#16)
  | .sneVxVy _ _ => some (0xF000#16, 0x9000#16)
  | .ldI _ => some (0xF000#16, 0xA000#16)
  | .jmpV0 _ => some (0xF000#16, 0xB000#16)
  | .rndVxKk _ _ => some (0xF000#16, 0xC000#16)
  | .drw _ _ _ => some (0xF000#16, 0xD000#16)
  | .skpVx _ => some (0xF0FF#16, 0xE09E#16)
  | .sknpVx _ => some (0xF0FF#16, 0xE0A1#16)
  | .ldVxDt _ => some (0xF0FF#16, 0xF007#16)
  | .ldVxK _ => some (0xF0FF#16, 0xF00A#16)
  | .ldDtVx _ => some (0xF0FF#16, 0xF015#16)
  | .ldStVx _ => some (0xF0FF#16, 0xF018#16)
  | .addIVx _ => some (0xF0FF#16, 0xF01E#16)
  | .ldFVx _ => some (0xF0FF#16, 0xF029#16)
  | .ldBVx _ => some (0xF0FF#16, 0xF033#16)
  | .ldMemVx _ => some (0xF0FF#16, 0xF055#16)
  | .ldVxMem _ => some (0xF0FF#16, 0xF065#16)
  | .unknown => none

/-- The 34 instruction rows of R73, in the table's order. -/
def opcodeRows : List (Word × Word) :=
  [(0xF0FF#16, 0x00E0#16), (0xF0FF#16, 0x00EE#16), (0xF000#16, 0x1000#16), (0xF000#16, 0x2000#16),
   (0xF000#16, 0x3000#16), (0xF000#16, 0x4000#16), (0xF000#16, 0x5000#16), (0xF000#16, 0x6000#16),
   (0xF000#16, 0x7000#16)] ++
  [(0xF00F#16, 0x8000#16), (0xF00F#16, 0x8001#16), (0xF00F#16, 0x8002#16), (0xF00F#16, 0x8003#16),
   (0xF00F#16, 0x8004#16), (0xF00F#16, 0x8005#16), (0xF00F#16, 0x8006#16), (0xF00F#16, 0x8007#16),
   (0xF00F#16, 0x800E#16)] ++
  [(0xF000#16, 0x9000#16), (0xF000#16, 0xA000#16), (0xF000#16, 0xB000#16), (0xF000#16, 0xC000#16),
   (0xF000#16, 0xD000#16), (0xF0FF#16, 0xE09E#16), (0xF0FF#16, 0xE0A1#16)] ++
  [(0xF0FF#16, 0xF007#16), (0xF0FF#16, 0xF00A#16), (0xF0FF#16, 0xF015#16), (0xF0FF#16, 0xF018#16),
   (0xF0FF#16, 0xF01E#16), (0xF0FF#16, 0xF029#16), (0xF0FF#16, 0xF033#16), (0xF0FF#16, 0xF055#16),
   (0xF0FF#16, 0xF065#16)]

/-- A word selects a row when `(op AND mask) = match` (R73). -/
def selects (op : Word) (row : Word × Word) : Bool := op &&& row.1 == row.2

/-! ### The host's view of a table word -/

/-- The table's word `w` of `nbits` bits as the bytes of a whole instruction: bits above `nbits` are 0,
an instruction is one 16-bit word (R60), and the word lies high byte first (20_memory.md R41). -/
def tableWordBytes (nbits w : Nat) : List Byte := wordBytes (BitVec.ofNat 16 (w % 2 ^ nbits))

/-- The instruction the decoder reads from a word numbered as spec/opcode_table.json numbers it. -/
def decodeTableWord (nbits w : Nat) : Option Instr :=
  match decodeBytes (tableWordBytes nbits w) with
  | .ok (i, _) => some i
  | .error _ => none

end Sys2Proof
end

