-- ==== Sys2Proof/Config.lean ====
section
/-! DEFINITION. What this hardware fixes (spec 00_scope.md R4) and the one value it leaves free. -/

namespace Sys2Proof.Config

/-- `MEM_SIZE`: memory is 4096 bytes (R4). -/
abbrev memSize : Nat := 4096

/-- `BASE_ADDR`: the reset value of PC and the default load address (R4). -/
abbrev baseAddr : Word := 0x200#16

/-- `STACK_DEPTH`: the call stack holds 16 entries (R4, the spec's decision D5). -/
abbrev stackDepth : Nat := 16

/-- The two legal values of `SHL_FLAG_BIT` (R4, decision D11): bit 0 and bit 7. -/
inductive ShlFlagBit where
  | bit0
  | bit7
  deriving DecidableEq, Repr

/-- The number of the bit that a choice names. -/
def ShlFlagBit.index : ShlFlagBit → Nat
  | .bit0 => 0
  | .bit7 => 7

/-- `SHL_FLAG_BIT` of this hardware is 0 (R4, 41_alu.md R130). Log 3. -/
def shlFlagBit : ShlFlagBit := .bit0

/-- FREE VALUE. The byte on port `rnd_byte` at the k-th draw since the machine was made: "drawn afresh
at each `rnd`", any of the 256 values (10_state.md R25, 41_alu.md R132, decision D19). It has no body:
nothing can be proved of what it is. Log 1. -/
opaque rndByte : Nat → Byte

end Sys2Proof.Config
end

