-- ==== Sys2Proof/Machine/State.lean ====
section
/-! DEFINITION. The machine state as the spec lists it (10_state.md, summary R27), the reasons a step can
stop, and the state after reset. -/

namespace Sys2Proof.Machine

/-- The values of the fault latch `FAULT` (10_state.md R22). -/
inductive FaultCode where
  /-- no fault since reset -/
  | none
  /-- `ret` with an empty call stack (60_exceptions.md R170) -/
  | stackUnderflow
  /-- `call` with a full call stack (R170) -/
  | stackOverflow
  /-- a fetch or data access beyond address 4095 (R170) -/
  | memoryBounds
  deriving DecidableEq, Repr

/-- The 2-bit code on port `fault` (60_exceptions.md R170, 10_state.md R25). -/
def FaultCode.code : FaultCode → BitVec 2
  | .none => 0#2
  | .stackUnderflow => 1#2
  | .stackOverflow => 2#2
  | .memoryBounds => 3#2

/-- An event on the output port `ext_req`: the capability a placeholder instruction asks the
presentation layer for, with its decoded operand fields (43_external_and_unknown.md R160 (e)). -/
inductive ExtReq where
  | clearScreen
  | drawSprite (x y : Reg) (n : Nat)
  | waitKey (x : Reg)
  | digitAddress (x : Reg)
  deriving DecidableEq, Repr

/-- Memory: the bytes that differ from what an unlisted address reads as, in rising order of address
(form: `Memory.wf`). Log 6. -/
abbrev Memory := List Host.Cell

/-- Everything the spec gives the machine (10_state.md R27), and two fields of the model's own. -/
structure State where
  /-- `V0`..`VF` (R10); `VF` is entry 15 (R11) -/
  v : Vector Byte 16
  /-- `PC` (R12) -/
  pc : Word
  /-- `I` (R16) -/
  i : Word
  /-- `STACK[0..15]` (R17). Log 4. -/
  stack : Vector Word 16
  /-- `SP`, 0 to 16, the number of valid stack entries (R17) -/
  sp : Fin 17
  /-- `MEM[0..4095]` (R21) -/
  mem : Memory
  /-- `DT` (R19) -/
  dt : Byte
  /-- `ST` (R19) -/
  st : Byte
  /-- `KEYS[0..15]`, true when pressed (R20) -/
  keys : Vector Bool 16
  /-- `FAULT` (R22) -/
  fault : FaultCode
  /-- the model's own: how many bytes have been drawn from port `rnd_byte`. Log 1. -/
  draws : Nat
  /-- the model's own: the events emitted on port `ext_req`, oldest first. Log 2. -/
  extReq : List ExtReq
  deriving DecidableEq, Repr

/-- Why a step answers no next state at all. -/
inductive Fault where
  /-- raised by `step` when the latch `FAULT` is set: the core is halted, the step "returns `Halted` and
  changes nothing" (60_exceptions.md R175). Safe: the hardware stops there too. Log 5. -/
  | halted (code : FaultCode)
  deriving DecidableEq, Repr

/-- Why an instruction has no meaning. -/
inductive Refusal where
  /-- raised by an arm of `exec` whose instruction has no meaning; no arm raises it now. Safe. -/
  | notModelled (mnemonic : String)
  deriving DecidableEq, Repr

/-- What a step, or a meaning, answers. -/
abbrev Result := Host.Outcome State Fault Refusal

/-- The machine right after reset (10_state.md R27, 70_reset_and_hazards.md R200). -/
def State.reset : State where
  v := Vector.replicate 16 0x00#8
  pc := Config.baseAddr
  i := 0x0000#16
  stack := Vector.replicate 16 0x0000#16
  sp := 0
  mem := []
  dt := 0x00#8
  st := 0x00#8
  keys := Vector.replicate 16 false
  fault := .none
  draws := 0
  extReq := []

end Sys2Proof.Machine
end

