-- ==== Sys2Proof/Machine/Ops.lean ====
section
/-! DEFINITION. The named operations over memory, registers, the program counter, the call stack and the
ports, and taking a fault; every meaning is built from them. -/

namespace Sys2Proof.Machine

/-! ### Memory as one flat array (20_memory.md R40) -/

/-- What a byte nothing has written reads as: 0x00, the reset value of memory (10_state.md R27). Log 6. -/
def Memory.unlisted : Byte := 0x00#8

/-- `MEM[a]`. -/
def Memory.read : Memory → Nat → Byte
  | [], _ => Memory.unlisted
  | (a, b) :: m, k => if a = k then b else Memory.read m k

/-- `MEM[k] <- v`, keeping the list sorted and free of unlisted values. -/
def Memory.write : Memory → Nat → Byte → Memory
  | [], k, v => if v = Memory.unlisted then [] else [(k, v)]
  | (a, b) :: m, k, v =>
    if k < a then (if v = Memory.unlisted then (a, b) :: m else (k, v) :: (a, b) :: m)
    else if k = a then (if v = Memory.unlisted then m else (k, v) :: m)
    else (a, b) :: Memory.write m k v

/-- The `n` bytes from address `a` on, lowest address first. -/
def Memory.readBytes (m : Memory) (a : Nat) : Nat → List Byte
  | 0 => []
  | n + 1 => m.read a :: Memory.readBytes m (a + 1) n

/-- Bytes stored from address `a` on, the first at the lowest address. -/
def Memory.writeBytes (m : Memory) (a : Nat) : List Byte → Memory
  | [] => m
  | b :: bs => Memory.writeBytes (m.write a b) (a + 1) bs

/-- Canonical form from address `lo` on: addresses rise strictly, exist, and no entry is the unlisted
value. -/
def Memory.wfFrom (lo : Nat) : Memory → Bool
  | [] => true
  | (a, b) :: m => lo ≤ a && a < Config.memSize && b != Memory.unlisted && Memory.wfFrom (a + 1) m

/-- The canonical form of memory. Log 6. -/
def Memory.wf (m : Memory) : Bool := Memory.wfFrom 0 m

/-! ### Taking a fault (60_exceptions.md R173) -/

/-- `raise f`: the latch takes the fault code and every other piece of state stays as it was; PC keeps the
address of the faulting instruction, or the out-of-range fetch address (R171, R173). There is no handler
to go to (R175) and no return from a fault: only reset clears the latch (R176, `State.hostReset`). -/
def State.raise (s : State) (f : FaultCode) : Result := .next { s with fault := f }

/-- The end of an instruction that may fault: its state, or `raise`. -/
def State.orRaise (s : State) : Except FaultCode State → Result
  | .ok t => .next t
  | .error f => s.raise f

/-- Reset, in any state, a halted one too: every piece of machine state to its reset value
(70_reset_and_hazards.md R200, R201). The two fields of the model's own go on: bytes drawn later are
fresh, and events already emitted stay emitted. Log 9. -/
def State.hostReset (s : State) : State :=
  { State.reset with draws := s.draws, extReq := s.extReq }

/-! ### Bounded memory access (20_memory.md R42 to R45) -/

/-- Every byte of `addr .. addr + n - 1` lies in 0..4095, the sum computed without wrap (R42). -/
def inBounds (addr : Word) (n : Nat) : Bool := addr.toNat + n ≤ Config.memSize

/-- `MEM[a]` of a state. -/
def State.readByte (s : State) (a : Nat) : Byte := s.mem.read a

/-- `MemRead(addr, n)` (R42). -/
def State.memRead (s : State) (addr : Word) (n : Nat) : Except FaultCode (List Byte) :=
  if inBounds addr n then .ok (s.mem.readBytes addr.toNat n) else .error .memoryBounds

/-- `MemWrite(addr, n, bytes)`, `n` the length of `bytes`: all of it or nothing (R43). -/
def State.memWrite (s : State) (addr : Word) (bytes : List Byte) : Except FaultCode State :=
  if inBounds addr bytes.length then .ok { s with mem := s.mem.writeBytes addr.toNat bytes }
  else .error .memoryBounds

/-- The instruction fetch `MemRead(PC, 2)`: `byte1` at PC, `byte2` at PC + 1, whatever the parity of PC
(R41, R44, R46). -/
def State.fetch (s : State) : Except FaultCode (Byte × Byte) :=
  if inBounds s.pc 2 then .ok (s.readByte s.pc.toNat, s.readByte (s.pc.toNat + 1))
  else .error .memoryBounds

/-! ### Registers (10_state.md R10, R11, R16, R19) -/

/-- `V[r]`. -/
def State.readV (s : State) (r : Reg) : Byte := s.v[r]

/-- `V[r] <- b`. -/
def State.writeV (s : State) (r : Reg) (b : Byte) : State := { s with v := s.v.set r b }

/-- `VF <- b`: register 15, no storage of its own (R11). -/
def State.writeVF (s : State) (b : Byte) : State := s.writeV Reg.vf b

/-- `I <- w`. -/
def State.writeI (s : State) (w : Word) : State := { s with i := w }

/-- `DT <- b`. -/
def State.writeDt (s : State) (b : Byte) : State := { s with dt := b }

/-- `ST <- b`. -/
def State.writeSt (s : State) (b : Byte) : State := { s with st := b }

/-- `V[0], V[1], ...` from a list of bytes; registers past its end keep their values
(42_index_timer_memory.md R147). -/
def State.loadRegs (s : State) (bytes : List Byte) : State :=
  { s with v := Vector.ofFn fun r : Fin 16 => bytes.getD r (s.readV r) }

/-! ### The program-counter sequencer (40_control_transfer.md R100) -/

/-- `pc <- target`. -/
def State.jumpTo (s : State) (target : Word) : State := { s with pc := target }

/-- The default update `pc <- (PC + 2) mod 2^16`. -/
def State.advance (s : State) : State := s.jumpTo (s.pc + 2#16)

/-- The skip update: `(PC + 4) mod 2^16` when the condition holds, else `(PC + 2) mod 2^16`. -/
def State.skipWhen (s : State) (cond : Bool) : State :=
  s.jumpTo (if cond then s.pc + 4#16 else s.pc + 2#16)

/-! ### The call stack (10_state.md R17, R18) -/

/-- Push: `StackOverflow` when 16 entries are valid, else `STACK[SP] <- w; SP <- SP + 1` (R18). -/
def State.push (s : State) (w : Word) : Except FaultCode State :=
  if h : s.sp.val < Config.stackDepth then
    .ok { s with stack := s.stack.set s.sp.val w h, sp := ⟨s.sp.val + 1, Nat.succ_lt_succ h⟩ }
  else .error .stackOverflow

/-- Pop: `StackUnderflow` when no entry is valid, else `SP <- SP - 1; result = STACK[SP]` (R18). The slot
keeps its contents. -/
def State.pop (s : State) : Except FaultCode (Word × State) :=
  if h : s.sp.val = 0 then .error .stackUnderflow
  else .ok (s.stack[s.sp.val - 1]'(by have := s.sp.isLt; omega),
            { s with sp := ⟨s.sp.val - 1, by have := s.sp.isLt; omega⟩ })

/-! ### The ports (10_state.md R25) -/

/-- The byte on `rnd_byte` at this draw (41_alu.md R132). Log 1. -/
def State.rndByte (s : State) : Byte := Config.rndByte s.draws

/-- The draw is used up: the next one is a fresh byte. -/
def State.countDraw (s : State) : State := { s with draws := s.draws + 1 }

/-- One event on `ext_req` (43_external_and_unknown.md R160 (e)). Log 2. -/
def State.emit (s : State) (e : ExtReq) : State := { s with extReq := s.extReq ++ [e] }

end Sys2Proof.Machine
end

