-- ==== Sys2Proof/Machine/Flags.lean ====
section
/-! DEFINITION. The flag computations (spec 10_state.md R15, 41_alu.md R126 to R130) and the two orders in
which a result and a flag are written. -/

namespace Sys2Proof.Machine

/-- A flag as the whole byte 0x00 or 0x01 (41_alu.md R131). -/
def flagByte (f : Bool) : Byte := if f then 0x01#8 else 0x00#8

/-- Carry of `a + b`: bit 8 of the 9-bit sum (R126). -/
def carryOut (a b : Byte) : Bool := (a.setWidth 9 + b.setWidth 9).getLsbD 8

/-- NOT borrow of `a - b`: false when `a < b`, true otherwise, also when they are equal (R127). -/
def notBorrow (a b : Byte) : Bool := !(a.ult b)

/-- The bit a shift right pushes out: bit 0 (R128). -/
def shrFlag (a : Byte) : Bool := a.getLsbD 0

/-- The bit a shift left copies to VF: bit `SHL_FLAG_BIT` (R130). Log 3. -/
def shlFlag (bit : Config.ShlFlagBit) (a : Byte) : Bool := a.getLsbD bit.index

/-- Result first, flag last: with `x = 15` the result is lost (R126, R127, R129). -/
def State.resultThenFlag (s : State) (x : Reg) (result : Byte) (flag : Bool) : State :=
  (s.writeV x result).writeVF (flagByte flag)

/-- Flag first, then the shift of `V[x]` as it reads after the flag write (R128, R130). -/
def State.flagThenShift (s : State) (x : Reg) (flag : Byte → Bool) (shift : Byte → Byte) : State :=
  let s' := s.writeVF (flagByte (flag (s.readV x)))
  s'.writeV x (shift (s'.readV x))

end Sys2Proof.Machine
end

