-- ==== Sys2Proof/Machine/Alu.lean ====
section
/-! DEFINITION. Register and ALU instructions (spec 41_alu.md). -/

namespace Sys2Proof.Machine

/-- `ld vx, kk` (R120). -/
def execLdVxKk (x : Reg) (kk : Byte) (s : State) : Result := .next (s.writeV x kk).advance

/-- `add vx, kk`: wraps modulo 256 and leaves VF alone (R121). -/
def execAddVxKk (x : Reg) (kk : Byte) (s : State) : Result :=
  .next (s.writeV x (s.readV x + kk)).advance

/-- `ld vx, vy` (R122). -/
def execLdVxVy (x y : Reg) (s : State) : Result := .next (s.writeV x (s.readV y)).advance

/-- `or vx, vy` (R123). -/
def execOrVxVy (x y : Reg) (s : State) : Result :=
  .next (s.writeV x (s.readV x ||| s.readV y)).advance

/-- `and vx, vy` (R124). -/
def execAndVxVy (x y : Reg) (s : State) : Result :=
  .next (s.writeV x (s.readV x &&& s.readV y)).advance

/-- `xor vx, vy` (R125). -/
def execXorVxVy (x y : Reg) (s : State) : Result :=
  .next (s.writeV x (s.readV x ^^^ s.readV y)).advance

/-- `add vx, vy`, VF = carry (R126). -/
def execAddVxVy (x y : Reg) (s : State) : Result :=
  let a := s.readV x
  let b := s.readV y
  .next (s.resultThenFlag x (a + b) (carryOut a b)).advance

/-- `sub vx, vy`: `V[x] - V[y]`, VF = NOT borrow (R127). -/
def execSubVxVy (x y : Reg) (s : State) : Result :=
  let a := s.readV x
  let b := s.readV y
  .next (s.resultThenFlag x (a - b) (notBorrow a b)).advance

/-- `subn vx, vy`: `V[y] - V[x]`, VF = NOT borrow (R129). -/
def execSubnVxVy (x y : Reg) (s : State) : Result :=
  let a := s.readV x
  let b := s.readV y
  .next (s.resultThenFlag x (b - a) (notBorrow b a)).advance

/-- `shr vx`: in place, `y` ignored (R128). -/
def execShrVx (x _y : Reg) (s : State) : Result :=
  .next (s.flagThenShift x shrFlag (· >>> 1)).advance

/-- `shl vx` on a core whose parameter `SHL_FLAG_BIT` is `bit` (R130). -/
def shiftLeft (bit : Config.ShlFlagBit) (x : Reg) (s : State) : State :=
  s.flagThenShift x (shlFlag bit) (· <<< 1)

/-- `shl vx` on this hardware: in place, `y` ignored, VF = old bit 0 (R130). -/
def execShlVx (x _y : Reg) (s : State) : Result := .next (shiftLeft Config.shlFlagBit x s).advance

/-- `rnd vx, kk` (R132). -/
def execRndVxKk (x : Reg) (kk : Byte) (s : State) : Result :=
  .next (s.writeV x (s.rndByte &&& kk)).countDraw.advance

end Sys2Proof.Machine
end

