-- ==== Sys2Proof/Machine/Operands.lean ====
section
/-! DEFINITION. The operand forms: what an instruction computes from its fields and the state before it
acts. -/

namespace Sys2Proof.Machine

/-- `zext_16` of a byte (spec 00_scope.md R6). -/
def zext16 (b : Byte) : Word := b.setWidth 16

/-- The target of the indexed jump: `nnn + V0` at 16 bits, not masked (40_control_transfer.md R102). -/
def indexedTarget (s : State) (nnn : Word) : Word := nnn + zext16 (s.readV 0)

/-- The return address of a call at PC: `(PC + 2) mod 2^16` (40_control_transfer.md R103). -/
def returnAddress (s : State) : Word := s.pc + 2#16

/-- Key number `k`, all 8 bits of it, is pressed; a number above 15 names an absent key, which is not
(40_control_transfer.md R109, 10_state.md R20). -/
def keyPressed (s : State) (k : Byte) : Bool :=
  if h : k.toNat < 16 then s.keys[k.toNat] else false

/-- Hundreds, tens and ones of a byte, in that order (42_index_timer_memory.md R145). -/
def decimalDigits (v : Byte) : List Byte := [v / 100#8, v / 10#8 % 10#8, v % 10#8]

/-- `V[0], .., V[x]` (42_index_timer_memory.md R146). -/
def regsUpTo (s : State) (x : Reg) : List Byte := s.v.toList.take (x.val + 1)

end Sys2Proof.Machine
end

