-- ==== Sys2Proof/Machine/Control.lean ====
section
/-! DEFINITION. Control transfer: jumps, call, return and the conditional skips (spec
40_control_transfer.md). -/

namespace Sys2Proof.Machine

/-- `jmp nnn` (R101). -/
def execJmp (nnn : Word) (s : State) : Result := .next (s.jumpTo nnn)

/-- `jmp v0, nnn` (R102). -/
def execJmpV0 (nnn : Word) (s : State) : Result := .next (s.jumpTo (indexedTarget s nnn))

/-- `call nnn`: pushes the return address, or raises `StackOverflow` (R103). -/
def execCall (nnn : Word) (s : State) : Result :=
  s.orRaise ((s.push (returnAddress s)).map fun t => t.jumpTo nnn)

/-- `ret`: the popped value exactly, or `StackUnderflow` (R104). -/
def execRet (s : State) : Result :=
  s.orRaise (s.pop.map fun (target, t) => t.jumpTo target)

/-- `se vx, kk` (R105). -/
def execSeVxKk (x : Reg) (kk : Byte) (s : State) : Result := .next (s.skipWhen (s.readV x == kk))

/-- `sne vx, kk` (R106). -/
def execSneVxKk (x : Reg) (kk : Byte) (s : State) : Result := .next (s.skipWhen (s.readV x != kk))

/-- `se vx, vy` (R107). -/
def execSeVxVy (x y : Reg) (s : State) : Result := .next (s.skipWhen (s.readV x == s.readV y))

/-- `sne vx, vy` (R108). -/
def execSneVxVy (x y : Reg) (s : State) : Result := .next (s.skipWhen (s.readV x != s.readV y))

/-- `skp vx` (R109). -/
def execSkpVx (x : Reg) (s : State) : Result := .next (s.skipWhen (keyPressed s (s.readV x)))

/-- `sknp vx` (R110). -/
def execSknpVx (x : Reg) (s : State) : Result := .next (s.skipWhen (!keyPressed s (s.readV x)))

end Sys2Proof.Machine
end

