-- ==== Sys2Proof/Machine/External.lean ====
section
/-! DEFINITION. The placeholder instructions, which change only PC and emit one event on `ext_req`, and
UNKNOWN, which changes only PC (spec 43_external_and_unknown.md). -/

namespace Sys2Proof.Machine

/-- What the four placeholders share: one event, the default advance, nothing else (R160). -/
def State.placeholder (s : State) (e : ExtReq) : Result := .next (s.emit e).advance

/-- `cls` (R161). -/
def execCls (s : State) : Result := s.placeholder .clearScreen

/-- `drw vx, vy, n`: the decoded fields only; VF is not written, no byte is read (R162). -/
def execDrw (x y : Reg) (n : Nat) (s : State) : Result := s.placeholder (.drawSprite x y n)

/-- `ld vx, k`: does not wait, `V[x]` is not written (R163). -/
def execLdVxK (x : Reg) (s : State) : Result := s.placeholder (.waitKey x)

/-- `ld f, vx`: I is not written, `V[x]` is not read (R164). -/
def execLdFVx (x : Reg) (s : State) : Result := s.placeholder (.digitAddress x)

/-- UNKNOWN: a no-op with the default advance; no fault and no event (R165). -/
def execUnknown (s : State) : Result := .next s.advance

end Sys2Proof.Machine
end

