-- ==== Sys2Proof/Machine/IndexTimerMemory.lean ====
section
/-! DEFINITION. Index register, timer and memory instructions (spec 42_index_timer_memory.md). -/

namespace Sys2Proof.Machine

/-- `ld i, nnn` (R140). -/
def execLdI (nnn : Word) (s : State) : Result := .next (s.writeI nnn).advance

/-- `add i, vx`: wraps at 16 bits, VF unchanged (R141). -/
def execAddIVx (x : Reg) (s : State) : Result :=
  .next (s.writeI (s.i + zext16 (s.readV x))).advance

/-- `ld vx, dt` (R142). -/
def execLdVxDt (x : Reg) (s : State) : Result := .next (s.writeV x s.dt).advance

/-- `ld dt, vx` (R143). -/
def execLdDtVx (x : Reg) (s : State) : Result := .next (s.writeDt (s.readV x)).advance

/-- `ld st, vx` (R144). -/
def execLdStVx (x : Reg) (s : State) : Result := .next (s.writeSt (s.readV x)).advance

/-- `ld b, vx`: the three decimal digits to I, I+1, I+2, or `MemoryBounds` with nothing written; I
unchanged (R145). -/
def execLdBVx (x : Reg) (s : State) : Result :=
  s.orRaise ((s.memWrite s.i (decimalDigits (s.readV x))).map State.advance)

/-- `ld [i], vx`: `V[0..x]` to I .. I+x, or `MemoryBounds` with nothing written; I unchanged (R146). -/
def execLdMemVx (x : Reg) (s : State) : Result :=
  s.orRaise ((s.memWrite s.i (regsUpTo s x)).map State.advance)

/-- `ld vx, [i]`: `V[0..x]` from I .. I+x, or `MemoryBounds` with no register written; I unchanged
(R147). -/
def execLdVxMem (x : Reg) (s : State) : Result :=
  s.orRaise ((s.memRead s.i (x.val + 1)).map fun bytes => (s.loadRegs bytes).advance)

end Sys2Proof.Machine
end

