-- ==== Sys2Proof/Machine/Step.lean ====
section
/-! DEFINITION. The step function (spec 60_exceptions.md R171) and the placing of one instruction word
where the next step fetches. -/

namespace Sys2Proof.Machine

/-- One `step` event: a halted core does nothing (R175); else fetch, which may raise `MemoryBounds` before
anything is decoded (R174), decode, execute. -/
def step (s : State) : Host.Outcome State Fault Refusal :=
  match s.fault with
  | .none =>
    match s.fetch with
    | .ok (byte1, byte2) => exec (decode byte1 byte2) s
    | .error f => s.raise f
  | code => .fault (.halted code)

/-- The instruction word `w` of the opcode table stored at PC, where the next step fetches it; it stands
for a load of a program from outside (70_reset_and_hazards.md R202). Where PC leaves no room for two bytes
nothing can be placed. Log 7. -/
def State.withFetchWord (s : State) (nbits w : Nat) : State :=
  if inBounds s.pc 2 then { s with mem := s.mem.writeBytes s.pc.toNat (tableWordBytes nbits w) } else s

end Sys2Proof.Machine
end

