-- ==== Sys2Proof/Machine/Render.lean ====
section
/-! DEFINITION. The mnemonic renderer, from a variant to text (spec 30_encoding.md R74 to R79). -/

namespace Sys2Proof.Machine

/-- A lower-case hexadecimal digit. -/
def hexDigit (d : Nat) : Char := Nat.digitChar d

/-- The hexadecimal digits of a number below 16^n, most significant first, `n` of them. -/
def hexDigits (v : Nat) : Nat → List Char
  | 0 => []
  | n + 1 => hexDigit (v / 16 ^ n % 16) :: hexDigits v n

/-- A number below 0x1000 in lower-case hexadecimal, at least two digits, no prefix (R76). -/
def renderNumber (v : Nat) : String :=
  String.ofList (if v < 0x100 then hexDigits v 2 else if v < 0x1000 then hexDigits v 3 else hexDigits v 4)

/-- `v` and the register's number in decimal, unpadded (R75). -/
def renderReg (r : Reg) : String :=
  String.ofList ('v' :: if r.val < 10 then [Nat.digitChar r.val] else ['1', Nat.digitChar (r.val - 10)])

/-- Mnemonic, one space, one operand (R74). -/
def render1 (mnemonic a : String) : String := mnemonic ++ " " ++ a

/-- Mnemonic, one space, two operands separated by a comma and a space (R74). -/
def render2 (mnemonic a b : String) : String := render1 mnemonic a ++ ", " ++ b

/-- Mnemonic and three operands (R74). -/
def render3 (mnemonic a b c : String) : String := render2 mnemonic a b ++ ", " ++ c

/-- `Render(variant)`: the mnemonics and operand order of R73's last column, the fixed words of R77, the
placeholder of R78; `shr` and `shl` do not print `y` (R77). -/
def render : Instr → String
  | .cls => "cls"
  | .ret => "ret"
  | .jmp nnn => render1 "jmp" (renderNumber nnn.toNat)
  | .call nnn => render1 "call" (renderNumber nnn.toNat)
  | .seVxKk x kk => render2 "se" (renderReg x) (renderNumber kk.toNat)
  | .sneVxKk x kk => render2 "sne" (renderReg x) (renderNumber kk.toNat)
  | .seVxVy x y => render2 "se" (renderReg x) (renderReg y)
  | .ldVxKk x kk => render2 "ld" (renderReg x) (renderNumber kk.toNat)
  | .addVxKk x kk => render2 "add" (renderReg x) (renderNumber kk.toNat)
  | .ldVxVy x y => render2 "ld" (renderReg x) (renderReg y)
  | .orVxVy x y => render2 "or" (renderReg x) (renderReg y)
  | .andVxVy x y => render2 "and" (renderReg x) (renderReg y)
  | .xorVxVy x y => render2 "xor" (renderReg x) (renderReg y)
  | .addVxVy x y => render2 "add" (renderReg x) (renderReg y)
  | .subVxVy x y => render2 "sub" (renderReg x) (renderReg y)
  | .shrVx x _ => render1 "shr" (renderReg x)
  | .subnVxVy x y => render2 "subn" (renderReg x) (renderReg y)
  | .shlVx x _ => render1 "shl" (renderReg x)
  | .sneVxVy x y => render2 "sne" (renderReg x) (renderReg y)
  | .ldI nnn => render2 "ld" "i" (renderNumber nnn.toNat)
  | .jmpV0 nnn => render2 "jmp" "v0" (renderNumber nnn.toNat)
  | .rndVxKk x kk => render2 "rnd" (renderReg x) (renderNumber kk.toNat)
  | .drw x y n => render3 "drw" (renderReg x) (renderReg y) (renderNumber n)
  | .skpVx x => render1 "skp" (renderReg x)
  | .sknpVx x => render1 "sknp" (renderReg x)
  | .ldVxDt x => render2 "ld" (renderReg x) "dt"
  | .ldVxK x => render2 "ld" (renderReg x) "k"
  | .ldDtVx x => render2 "ld" "dt" (renderReg x)
  | .ldStVx x => render2 "ld" "st" (renderReg x)
  | .addIVx x => render2 "add" "i" (renderReg x)
  | .ldFVx x => render2 "ld" "f" (renderReg x)
  | .ldBVx x => render2 "ld" "b" (renderReg x)
  | .ldMemVx x => render2 "ld" "[i]" (renderReg x)
  | .ldVxMem x => render2 "ld" (renderReg x) "[i]"
  | .unknown => "???"

end Sys2Proof.Machine
end

