-- ==== Sys2Proof/Machine/HostOps.lean ====
section
/-! DEFINITION. The driver's operations between steps (spec 60_exceptions.md R183 to R188) and a step as
the driver sees it, with its result Ok, Fault(f) or Halted (R171). -/

namespace Sys2Proof.Machine

/-! ### The operations -/

/-- Why a host operation fails; none of them sets FAULT. -/
inductive HostError where
  /-- `load`: address + length exceeds 4096 (R183) -/
  | loadOverflow
  /-- `disasm`: not `start <= end <= 4096` with an even length (R184) -/
  | rangeError
  /-- `key_set`: a key above 15 (R185) -/
  | keyRange
  deriving DecidableEq, Repr

/-- `load(addr, bytes)`: all of the buffer, or `LoadOverflow` and not one byte; PC is not moved (R183). -/
def State.load (s : State) (addr : Nat) (bytes : List Byte) : Except HostError State :=
  if addr + bytes.length ≤ Config.memSize then .ok { s with mem := s.mem.writeBytes addr bytes }
  else .error .loadOverflow

/-- `load` at its default address, the base address 0x200 (R183). -/
def State.loadRom (s : State) (rom : List Byte) : Except HostError State :=
  s.load Config.baseAddr.toNat rom

/-- The variants of `n` consecutive two-byte slots from address `a` on. -/
def State.disasmFrom (s : State) (a : Nat) : Nat → List Instr
  | 0 => []
  | n + 1 => decode (s.readByte a) (s.readByte (a + 1)) :: State.disasmFrom s (a + 2) n

/-- `disasm(start, end)` of the half-open range, or `RangeError`; `start` need not be even (R184). Log 14. -/
def State.disasm (s : State) (start stop : Nat) : Except HostError (List Instr) :=
  if start ≤ stop ∧ stop ≤ Config.memSize ∧ (stop - start) % 2 = 0 then
    .ok (s.disasmFrom start ((stop - start) / 2))
  else .error .rangeError

/-- `key_set(k, pressed)`, or `KeyRange` (R185). -/
def State.keySet (s : State) (k : Nat) (pressed : Bool) : Except HostError State :=
  if h : k < 16 then .ok { s with keys := s.keys.set k pressed h } else .error .keyRange

/-! ### Everything the driver may do between two steps, and a step (R188) -/

/-- One interaction of the driver with the machine: the rows of the table under R188. Log 8. -/
inductive DriverCall where
  | step
  | reset
  | load (addr : Nat) (bytes : List Byte)
  | disasm (start stop : Nat)
  | keySet (k : Nat) (pressed : Bool)
  | dtSet (v : Byte)
  | stSet (v : Byte)
  | dtGet
  | stGet
  | readOut
  deriving DecidableEq, Repr

/-- What the driver gets back. -/
inductive DriverAnswer where
  /-- a step that completed (R171) -/
  | ok
  /-- a step that faulted (R171) -/
  | fault (code : FaultCode)
  /-- a step of a halted core (R175) -/
  | halted
  /-- a host operation that was done -/
  | done
  /-- a host operation that failed and changed nothing -/
  | failed (e : HostError)
  /-- a timer's value (R186) -/
  | value (b : Byte)
  /-- a disassembled range (R184) -/
  | variants (l : List Instr)
  /-- the whole record, which the driver owns (R187) -/
  | record (s : State)
  /-- the model has no meaning for the instruction; no instruction of the table answers so -/
  | refused (r : Refusal)
  deriving DecidableEq, Repr

/-- The state and the answer after an operation that may fail and then changes nothing. -/
def State.doneOr (s : State) : Except HostError State → State × DriverAnswer
  | .ok t => (t, .done)
  | .error e => (s, .failed e)

/-- A step as the driver sees it: `Ok`, `Fault(f)` with the latch set, or `Halted` with no change (R171). -/
def State.driveStep (s : State) : State × DriverAnswer :=
  match step s with
  | .next t => (t, if t.fault = .none then .ok else .fault t.fault)
  | .fault (.halted _) => (s, .halted)
  | .refused r => (s, .refused r)

/-- One driver call: the state after it and the driver's answer. Every call is atomic and accepted in any
state, a halted one too (R188). -/
def drive (s : State) : DriverCall → State × DriverAnswer
  | .step => s.driveStep
  | .reset => (s.hostReset, .done)
  | .load addr bytes => s.doneOr (s.load addr bytes)
  | .disasm start stop =>
    match s.disasm start stop with
    | .ok l => (s, .variants l)
    | .error e => (s, .failed e)
  | .keySet k pressed => s.doneOr (s.keySet k pressed)
  | .dtSet v => (s.writeDt v, .done)
  | .stSet v => (s.writeSt v, .done)
  | .dtGet => (s, .value s.dt)
  | .stGet => (s, .value s.st)
  | .readOut => (s, .record s)

/-- The state after a sequence of driver calls: steps and host operations in any order (R188). -/
def driveAll (s : State) : List DriverCall → State
  | [] => s
  | c :: cs => driveAll (drive s c).1 cs

end Sys2Proof.Machine
end

