-- ==== Sys2Proof/Safety.lean ====
section
/-! DEFINITION. The terms claims are stated in: halted and idle states, safe runs, the invariant every
step keeps, and the spec's own tables of who writes what (10_state.md, 60_exceptions.md). -/

namespace Sys2Proof.Machine

/-! ### Runs -/

/-- The latch is set: the core takes no step until reset (60_exceptions.md R175). -/
def State.halted (s : State) : Prop := s.fault ≠ .none

/-- `k` steps from `s`, none of them faulting, end in `t`: a halted state is "never a successful end of a
run" (60_exceptions.md R175). -/
def SafeRun : Nat → State → State → Prop
  | 0, s, t => t = s ∧ ¬ s.halted
  | k + 1, s, t => ∃ u, step s = .next u ∧ ¬ u.halted ∧ SafeRun k u t

/-- The end-of-run convention: PC addresses a `jmp` to its own address (70_reset_and_hazards.md R203). -/
def State.idle (s : State) : Prop :=
  ¬ s.halted ∧ ∃ byte1 byte2, s.fetch = .ok (byte1, byte2) ∧ decode byte1 byte2 = .jmp s.pc

/-- A state some sequence of driver calls reaches from reset (60_exceptions.md R188). -/
def Reachable (s : State) : Prop := ∃ calls, driveAll State.reset calls = s

/-! ### The invariant -/

/-- What holds in every state that steps and driver calls can reach: memory is in canonical form with
every listed address in 0..4095; PC is at most 0x10FE, the highest target of an indexed jump (R102); and
every valid stack entry is a return address, `P + 2` for a `P` that an instruction was fetched from
(R104). -/
structure State.Inv (s : State) : Prop where
  memCanonical : s.mem.wf = true
  pcBound : s.pc.toNat ≤ 0x10FE
  returnAddresses : ∀ k (h : k < 16), k < s.sp.val → 2 ≤ s.stack[k].toNat ∧ s.stack[k].toNat ≤ 0x1000

/-- Two states differ at most in stack entries at and above SP, which "are never read by any rule"
(10_state.md R17). -/
def SameLive (s u : State) : Prop :=
  u = { s with stack := u.stack } ∧ ∀ k (h : k < 16), k < s.sp.val → u.stack[k] = s.stack[k]

/-! ### Shapes of effect, frames included -/

/-- From `s` to `t` an instruction wrote `b` to register `x`, took the default PC update, and changed
nothing else. -/
def WritesRegister (s t : State) (x : Reg) (b : Byte) : Prop :=
  t.readV x = b ∧ (∀ r, r ≠ x → t.readV r = s.readV r) ∧ t = { s with v := t.v, pc := s.pc + 2 }

/-- From `s` to `t` an instruction wrote `b` to register `x` and then the flag byte `f` to VF, took the
default PC update, and changed nothing else; with `x = 15` the result is lost. -/
def WritesResultThenFlag (s t : State) (x : Reg) (b f : Byte) : Prop :=
  t.readV Reg.vf = f ∧ (x ≠ Reg.vf → t.readV x = b) ∧
    (∀ r, r ≠ x → r ≠ Reg.vf → t.readV r = s.readV r) ∧ t = { s with v := t.v, pc := s.pc + 2 }

/-- From `s` to `t` an instruction stored bytes only at the `n` addresses from I on, took the default PC
update, and changed nothing else. -/
def StoresAtI (s t : State) (n : Nat) : Prop :=
  (∀ a, (a < s.i.toNat ∨ s.i.toNat + n ≤ a) → t.readByte a = s.readByte a) ∧
    t = { s with mem := t.mem, pc := s.pc + 2 }

/-- With PC at `p` the fetch gives the two bytes that `byteAt` gives for its addresses. -/
def State.FetchReads (t : State) (p : Word) (byteAt : Nat → Byte) : Prop :=
  { t with pc := p }.fetch = .ok (byteAt p.toNat, byteAt (p.toNat + 1))

end Sys2Proof.Machine

/-! ### The spec's tables, per instruction -/

namespace Sys2Proof

open Machine

/-- The fault an instruction raises in a state, or none (60_exceptions.md R170). -/
def Instr.faultIn (i : Instr) (s : State) : FaultCode :=
  match i with
  | .ret => if s.sp.val = 0 then .stackUnderflow else .none
  | .call _ => if s.sp.val = 16 then .stackOverflow else .none
  | .ldBVx _ => if 4096 < s.i.toNat + 3 then .memoryBounds else .none
  | .ldMemVx x => if 4096 < s.i.toNat + x.val + 1 then .memoryBounds else .none
  | .ldVxMem x => if 4096 < s.i.toNat + x.val + 1 then .memoryBounds else .none
  | .cls | .jmp _ | .seVxKk _ _ | .sneVxKk _ _ | .seVxVy _ _ | .ldVxKk _ _ | .addVxKk _ _
  | .ldVxVy _ _ | .orVxVy _ _ | .andVxVy _ _ | .xorVxVy _ _ | .addVxVy _ _ | .subVxVy _ _
  | .shrVx _ _ | .subnVxVy _ _ | .shlVx _ _ | .sneVxVy _ _ | .ldI _ | .jmpV0 _ | .rndVxKk _ _
  | .drw _ _ _ | .skpVx _ | .sknpVx _ | .ldVxDt _ | .ldVxK _ | .ldDtVx _ | .ldStVx _
  | .addIVx _ | .ldFVx _ | .unknown => .none

/-- The PC an instruction that does not fault leaves (10_state.md R13): jump, indexed jump, call, return
and skip targets, else the default. -/
def Instr.nextPc (i : Instr) (s : State) : Word :=
  match i with
  | .jmp nnn => nnn
  | .jmpV0 nnn => nnn + (s.readV 0).setWidth 16
  | .call nnn => nnn
  | .ret => if h : s.sp.val = 0 then s.pc else s.stack[s.sp.val - 1]'(by have := s.sp.isLt; omega)
  | .seVxKk x kk => if s.readV x = kk then s.pc + 4 else s.pc + 2
  | .sneVxKk x kk => if s.readV x ≠ kk then s.pc + 4 else s.pc + 2
  | .seVxVy x y => if s.readV x = s.readV y then s.pc + 4 else s.pc + 2
  | .sneVxVy x y => if s.readV x ≠ s.readV y then s.pc + 4 else s.pc + 2
  | .skpVx x => if keyPressed s (s.readV x) then s.pc + 4 else s.pc + 2
  | .sknpVx x => if keyPressed s (s.readV x) then s.pc + 2 else s.pc + 4
  | .cls | .ldVxKk _ _ | .addVxKk _ _ | .ldVxVy _ _ | .orVxVy _ _ | .andVxVy _ _ | .xorVxVy _ _
  | .addVxVy _ _ | .subVxVy _ _ | .shrVx _ _ | .subnVxVy _ _ | .shlVx _ _ | .ldI _
  | .rndVxKk _ _ | .drw _ _ _ | .ldVxDt _ | .ldVxK _ | .ldDtVx _ | .ldStVx _ | .addIVx _
  | .ldFVx _ | .ldBVx _ | .ldMemVx _ | .ldVxMem _ | .unknown => s.pc + 2

/-- The general registers an instruction writes: the write rows of the table after 10_state.md R11,
"write `V[x]`", "write `V[0..x]`" and "write `VF` as flag". -/
def Instr.writesReg (i : Instr) (r : Reg) : Bool :=
  match i with
  | .ldVxKk x _ => r == x
  | .addVxKk x _ => r == x
  | .ldVxVy x _ => r == x
  | .orVxVy x _ => r == x
  | .andVxVy x _ => r == x
  | .xorVxVy x _ => r == x
  | .addVxVy x _ => r == x || r == Reg.vf
  | .subVxVy x _ => r == x || r == Reg.vf
  | .shrVx x _ => r == x || r == Reg.vf
  | .subnVxVy x _ => r == x || r == Reg.vf
  | .shlVx x _ => r == x || r == Reg.vf
  | .rndVxKk x _ => r == x
  | .ldVxDt x => r == x
  | .ldVxMem x => r.val ≤ x.val
  | _ => false

/-- How many bytes an instruction stores from address I on (20_memory.md R47). -/
def Instr.storeLength : Instr → Nat
  | .ldBVx _ => 3
  | .ldMemVx x => x.val + 1
  | _ => 0

/-- Jumps, call and return: the instructions that set PC outright (40_control_transfer.md R100). -/
def Instr.redirects : Instr → Bool
  | .jmp _ => true
  | .jmpV0 _ => true
  | .call _ => true
  | .ret => true
  | .cls | .seVxKk _ _ | .sneVxKk _ _ | .seVxVy _ _ | .ldVxKk _ _ | .addVxKk _ _ | .ldVxVy _ _
  | .orVxVy _ _ | .andVxVy _ _ | .xorVxVy _ _ | .addVxVy _ _ | .subVxVy _ _ | .shrVx _ _
  | .subnVxVy _ _ | .shlVx _ _ | .sneVxVy _ _ | .ldI _ | .rndVxKk _ _ | .drw _ _ _ | .skpVx _
  | .sknpVx _ | .ldVxDt _ | .ldVxK _ | .ldDtVx _ | .ldStVx _ | .addIVx _ | .ldFVx _ | .ldBVx _
  | .ldMemVx _ | .ldVxMem _ | .unknown => false

end Sys2Proof
end

