-- ==== Sys2Proof/Certificates/Slice0/Obligations.lean ====
section
/-! DEFINITION. The statements for the provers, from the spec's numbered rules. -/

open Sys2Proof Sys2Proof.Machine

/-! ### Encoding -/

/-- Decoding the bytes of any well-formed instruction, whatever follows them, gives the instruction back
with every operand, and leaves what follows. (The encoder is the model's: log 10.) -/
def Obligations.DecodingAnEncodedInstructionGivesItBack : Prop :=
  ∀ (i : Instr) (rest : List Byte), i.wf = true → decodeBytes (encode i ++ rest) = .ok (i, rest)

/-- R73: a word decodes to the instruction whose row it selects by `(op AND mask) = match`; the 34 rows
are pairwise disjoint; a word that selects no row is UNKNOWN, and only such a word. -/
def Obligations.WordsSelectTheirRowOfTheOpcodeMap : Prop :=
  opcodeRows.length = 34 ∧
  (∀ (op : Word) (row : Word × Word), row ∈ opcodeRows →
    (selects op row = true ↔ (decodeWord op).row = some row)) ∧
  (∀ (op : Word) (r₁ r₂ : Word × Word), r₁ ∈ opcodeRows → r₂ ∈ opcodeRows →
    selects op r₁ = true → selects op r₂ = true → r₁ = r₂) ∧
  (∀ op : Word, (∀ row ∈ opcodeRows, selects op row = false) ↔ decodeWord op = .unknown)

/-- R70: the words that decode to UNKNOWN are exactly those of families 0, 8, E and F with none of the
listed sub-operations. -/
def Obligations.UnknownWordsAreExactlyTheUnlistedSubOperations : Prop :=
  ∀ (f x : BitVec 4) (byte2 : Byte),
    decode (f ++ x) byte2 = .unknown ↔
      (f = 0x0#4 ∧ byte2 ∉ [0xE0#8, 0xEE#8]) ∨
      (f = 0x8#4 ∧ byte2.toNat % 16 ∈ [0x8, 0x9, 0xA, 0xB, 0xC, 0xD, 0xF]) ∨
      (f = 0xE#4 ∧ byte2 ∉ [0x9E#8, 0xA1#8]) ∨
      (f = 0xF#4 ∧ byte2 ∉ [0x07#8, 0x0A#8, 0x15#8, 0x18#8, 0x1E#8, 0x29#8, 0x33#8, 0x55#8, 0x65#8])

/-- R62: whatever the two bytes, the decoded operands fit their fields: an address is at most 0xFFF and a
count at most 15. -/
def Obligations.DecodedOperandsFitTheirFields : Prop :=
  ∀ byte1 byte2 : Byte, (decode byte1 byte2).wf = true

/-- Words written out from the spec's encodings decode to the instructions they stand for: 0x6A07, 0x1234
and 0x8014 (J8SPEC's own), 0x05EE, 0x5121, 0xD01F, 0xF165, 0x8018. -/
def Obligations.SampleWordsDecode : Prop :=
  decodeTableWord 16 0x6A07 = some (.ldVxKk 10 0x07) ∧ decodeTableWord 16 0x1234 = some (.jmp 0x234) ∧
  decodeTableWord 16 0x8014 = some (.addVxVy 0 1) ∧ decodeTableWord 16 0x05EE = some .ret ∧
  decodeTableWord 16 0x5121 = some (.seVxVy 1 2) ∧ decodeTableWord 16 0xD01F = some (.drw 0 1 15) ∧
  decodeTableWord 16 0xF165 = some (.ldVxMem 1) ∧ decodeTableWord 16 0x8018 = some .unknown

/-- The renderer's outputs that the spec prints (R74 to R78), among them J8SPEC's own five. -/
def Obligations.SampleVariantsRender : Prop :=
  render (decode 0x00 0xEE) = "ret" ∧ render (decode 0x1A 0xBC) = "jmp abc" ∧
  render (decode 0x12 0x00) = "jmp 200" ∧ render (decode 0x6A 0x07) = "ld v10, 07" ∧
  render (decode 0x80 0x14) = "add v0, v1" ∧ render (decode 0x33 0x1A) = "se v3, 1a" ∧
  render (decode 0xA0 0x05) = "ld i, 05" ∧ render (decode 0x8A 0xB6) = "shr v10" ∧
  render (decode 0xD1 0x25) = "drw v1, v2, 05" ∧ render (decode 0xF2 0x55) = "ld [i], v2" ∧
  render (decode 0xF2 0x65) = "ld v2, [i]" ∧ render (decode 0x80 0x18) = "???"

/-! ### Reset -/

/-- R27, R200, R201: reset, in any state, leaves every piece of machine state at its reset value; doing it
twice is doing it once; a newly made machine has the same values. -/
def Obligations.ResetLeavesEveryFieldAtItsResetValue : Prop :=
  (∀ s : State, s.hostReset.hostReset = s.hostReset ∧ (drive s .reset).1 = s.hostReset) ∧
  (∀ s t : State, t = State.reset ∨ t = s.hostReset →
    (∀ r, t.readV r = 0x00) ∧ t.pc = 0x0200 ∧ t.i = 0x0000 ∧ t.sp = 0 ∧
    (∀ k (h : k < 16), t.stack[k] = 0x0000) ∧ (∀ a, t.readByte a = 0x00) ∧ t.dt = 0x00 ∧ t.st = 0x00 ∧
    (∀ k (h : k < 16), t.keys[k] = false) ∧ t.fault = .none)

/-! ### Control transfer -/

/-- R101, R102: `jmp nnn` sets PC to `nnn`; `jmp v0, nnn` sets it to `nnn + V0`, a sum of at most 0x10FE
that does not wrap and is not masked; nothing else changes and neither faults, but the fetch after a jump
to a target above 0x0FFE does. -/
def Obligations.JumpsSetPcToTheTarget : Prop :=
  (∀ (hi : BitVec 4) (lo : Byte), decode (0x1#4 ++ hi) lo = .jmp ((hi ++ lo).setWidth 16)) ∧
  (∀ (hi : BitVec 4) (lo : Byte), decode (0xB#4 ++ hi) lo = .jmpV0 ((hi ++ lo).setWidth 16)) ∧
  (∀ nnn s, exec (.jmp nnn) s = .next { s with pc := nnn }) ∧
  (∀ (nnn : Word) (s : State), nnn.toNat ≤ 0xFFF → ∃ target : Word,
    target.toNat = nnn.toNat + (s.readV 0).toNat ∧ target.toNat ≤ 0x10FE ∧
    exec (.jmpV0 nnn) s = .next { s with pc := target }) ∧
  (∀ (nnn : Word) (s t : State), s.fault = .none →
    exec (.jmp nnn) s = .next t ∨ exec (.jmpV0 nnn) s = .next t → 0xFFE < t.pc.toNat →
    step t = .next { t with fault := .memoryBounds })

/-- R103: with room on the stack `call nnn` stores `(PC + 2) mod 2^16` at `STACK[SP]`, adds 1 to SP and
sets PC to `nnn`, and nothing else changes; with 16 entries it raises `StackOverflow` and nothing but the
latch changes; a `ret` right after the call comes back to the instruction after it. -/
def Obligations.CallPushesTheReturnAddress : Prop :=
  (∀ (hi : BitVec 4) (lo : Byte), decode (0x2#4 ++ hi) lo = .call ((hi ++ lo).setWidth 16)) ∧
  (∀ (nnn : Word) (s : State) (_ : s.sp.val < 16), ∃ t, exec (.call nnn) s = .next t ∧
    t.sp.val = s.sp.val + 1 ∧ t.stack[s.sp.val] = s.pc + 2 ∧
    (∀ k (h : k < 16), k ≠ s.sp.val → t.stack[k] = s.stack[k]) ∧
    t = { s with pc := nnn, stack := t.stack, sp := t.sp }) ∧
  (∀ (nnn : Word) (s : State), s.sp.val = 16 →
    exec (.call nnn) s = .next { s with fault := .stackOverflow }) ∧
  (∀ (nnn : Word) (s t : State), s.sp.val < 16 → exec (.call nnn) s = .next t →
    exec .ret t = .next { t with pc := s.pc + 2, sp := s.sp })

/-- R104: with a valid entry `ret` subtracts 1 from SP and sets PC to the popped entry exactly, and nothing
else changes, not even the slot; with an empty stack it raises `StackUnderflow` and nothing but the latch
changes. -/
def Obligations.ReturnPopsIntoPc : Prop :=
  (∀ a : BitVec 4, decode (0x0#4 ++ a) 0xEE = .ret) ∧
  (∀ (s : State) (_ : 0 < s.sp.val), ∃ t, exec .ret s = .next t ∧
    t.sp.val = s.sp.val - 1 ∧ t.pc = s.stack[s.sp.val - 1]'(by have := s.sp.isLt; omega) ∧
    t = { s with pc := t.pc, sp := t.sp }) ∧
  (∀ s : State, s.sp.val = 0 → exec .ret s = .next { s with fault := .stackUnderflow })

/-- "calling address X from address P then returning restores PC to P+2": a `ret` executed in any state
whose valid stack is the one the call left comes back to the instruction after the call, at the call's
depth. -/
def Obligations.ReturnComesBackBehindTheCall : Prop :=
  ∀ (nnn : Word) (s t u : State), s.sp.val < 16 → exec (.call nnn) s = .next t → u.sp = t.sp →
    (∀ k (h : k < 16), k < t.sp.val → u.stack[k] = t.stack[k]) →
    exec .ret u = .next { u with pc := s.pc + 2, sp := s.sp }

/-- R105 to R108: the four skips on registers and immediates move PC by 4 when their condition holds and by
2 when it does not, and change nothing else. The low nibble of families 5 and 9 is ignored. -/
def Obligations.SkipsCompareRegistersAndImmediates : Prop :=
  (∀ (x : BitVec 4) (kk : Byte), decode (0x3#4 ++ x) kk = .seVxKk x.toFin kk ∧
    decode (0x4#4 ++ x) kk = .sneVxKk x.toFin kk) ∧
  (∀ (x y n : BitVec 4), decode (0x5#4 ++ x) (y ++ n) = .seVxVy x.toFin y.toFin ∧
    decode (0x9#4 ++ x) (y ++ n) = .sneVxVy x.toFin y.toFin) ∧
  (∀ x kk s, exec (.seVxKk x kk) s =
    .next { s with pc := if s.readV x = kk then s.pc + 4 else s.pc + 2 }) ∧
  (∀ x kk s, exec (.sneVxKk x kk) s =
    .next { s with pc := if s.readV x = kk then s.pc + 2 else s.pc + 4 }) ∧
  (∀ x y s, exec (.seVxVy x y) s =
    .next { s with pc := if s.readV x = s.readV y then s.pc + 4 else s.pc + 2 }) ∧
  (∀ x y s, exec (.sneVxVy x y) s =
    .next { s with pc := if s.readV x = s.readV y then s.pc + 2 else s.pc + 4 })

/-- R109, R110: `skp vx` skips exactly when the key numbered by all 8 bits of `V[x]` is pressed, `sknp vx`
exactly when it is not; a number of 16 to 255 names an absent key, which is not pressed. Nothing else
changes. -/
def Obligations.KeySkipsReadTheKeyMap : Prop :=
  (∀ x : BitVec 4, decode (0xE#4 ++ x) 0x9E = .skpVx x.toFin ∧
    decode (0xE#4 ++ x) 0xA1 = .sknpVx x.toFin) ∧
  (∀ (x : Reg) (s : State) (_ : (s.readV x).toNat ≤ 15),
    exec (.skpVx x) s = .next { s with pc := if s.keys[(s.readV x).toNat] then s.pc + 4 else s.pc + 2 } ∧
    exec (.sknpVx x) s =
      .next { s with pc := if s.keys[(s.readV x).toNat] then s.pc + 2 else s.pc + 4 }) ∧
  (∀ (x : Reg) (s : State), 16 ≤ (s.readV x).toNat →
    exec (.skpVx x) s = .next { s with pc := s.pc + 2 } ∧
    exec (.sknpVx x) s = .next { s with pc := s.pc + 4 })

/-! ### Register and ALU instructions -/

/-- R120, R122, R142: `ld vx, kk`, `ld vx, vy` and `ld vx, dt` put the immediate, the source register or DT
into `V[x]` and change nothing else but PC. -/
def Obligations.LoadsWriteTheTargetRegister : Prop :=
  (∀ (x : BitVec 4) (kk : Byte), decode (0x6#4 ++ x) kk = .ldVxKk x.toFin kk) ∧
  (∀ x y : BitVec 4, decode (0x8#4 ++ x) (y ++ 0x0#4) = .ldVxVy x.toFin y.toFin) ∧
  (∀ x : BitVec 4, decode (0xF#4 ++ x) 0x07 = .ldVxDt x.toFin) ∧
  (∀ x kk s, ∃ t, exec (.ldVxKk x kk) s = .next t ∧ WritesRegister s t x kk) ∧
  (∀ x y s, ∃ t, exec (.ldVxVy x y) s = .next t ∧ WritesRegister s t x (s.readV y)) ∧
  (∀ x s, ∃ t, exec (.ldVxDt x) s = .next t ∧ WritesRegister s t x s.dt)

/-- R121: `add vx, kk` leaves `(V[x] + kk) mod 256` in `V[x]`; VF is not changed, even on wrap-around,
unless it is `V[x]`. -/
def Obligations.AddImmediateWrapsAndSetsNoFlag : Prop :=
  (∀ (x : BitVec 4) (kk : Byte), decode (0x7#4 ++ x) kk = .addVxKk x.toFin kk) ∧
  (∀ (x : Reg) (kk : Byte) (s : State), ∃ t b, exec (.addVxKk x kk) s = .next t ∧
    WritesRegister s t x b ∧ b.toNat = ((s.readV x).toNat + kk.toNat) % 256)

/-- R123, R124, R125: or, and, xor work bit by bit on the 8 bits of the two registers, store into the
target and leave the source, VF and everything else but PC alone. -/
def Obligations.BitwiseOperationsActOnEveryBit : Prop :=
  (∀ x y : BitVec 4, decode (0x8#4 ++ x) (y ++ 0x1#4) = .orVxVy x.toFin y.toFin ∧
    decode (0x8#4 ++ x) (y ++ 0x2#4) = .andVxVy x.toFin y.toFin ∧
    decode (0x8#4 ++ x) (y ++ 0x3#4) = .xorVxVy x.toFin y.toFin) ∧
  (∀ (x y : Reg) (s : State), ∃ t b, exec (.orVxVy x y) s = .next t ∧ WritesRegister s t x b ∧
    ∀ k < 8, b.getLsbD k = ((s.readV x).getLsbD k || (s.readV y).getLsbD k)) ∧
  (∀ (x y : Reg) (s : State), ∃ t b, exec (.andVxVy x y) s = .next t ∧ WritesRegister s t x b ∧
    ∀ k < 8, b.getLsbD k = ((s.readV x).getLsbD k && (s.readV y).getLsbD k)) ∧
  (∀ (x y : Reg) (s : State), ∃ t b, exec (.xorVxVy x y) s = .next t ∧ WritesRegister s t x b ∧
    ∀ k < 8, b.getLsbD k = Bool.xor ((s.readV x).getLsbD k) ((s.readV y).getLsbD k))

/-- R126: `add vx, vy` stores the sum modulo 256 and then VF = 1 if the sum is 256 or more, else 0; with
`x = 15` the sum is lost and VF is the carry. -/
def Obligations.AddStoresTheSumThenTheCarry : Prop :=
  (∀ x y : BitVec 4, decode (0x8#4 ++ x) (y ++ 0x4#4) = .addVxVy x.toFin y.toFin) ∧
  (∀ (x y : Reg) (s : State), ∃ t b, exec (.addVxVy x y) s = .next t ∧
    WritesResultThenFlag s t x b (if 256 ≤ (s.readV x).toNat + (s.readV y).toNat then 0x01 else 0x00) ∧
    b.toNat = ((s.readV x).toNat + (s.readV y).toNat) % 256)

/-- R127, R129: `sub` stores `(V[x] - V[y]) mod 256` and `subn` `(V[y] - V[x]) mod 256`, and then VF = 0 if
the subtraction borrowed, else 1, also when the operands are equal; with `x = 15` the difference is
lost. -/
def Obligations.SubtractsStoreTheDifferenceThenNotBorrow : Prop :=
  (∀ x y : BitVec 4, decode (0x8#4 ++ x) (y ++ 0x5#4) = .subVxVy x.toFin y.toFin ∧
    decode (0x8#4 ++ x) (y ++ 0x7#4) = .subnVxVy x.toFin y.toFin) ∧
  (∀ (x y : Reg) (s : State), ∃ t b, exec (.subVxVy x y) s = .next t ∧
    WritesResultThenFlag s t x b (if (s.readV x).toNat < (s.readV y).toNat then 0x00 else 0x01) ∧
    b.toNat = (256 + (s.readV x).toNat - (s.readV y).toNat) % 256) ∧
  (∀ (x y : Reg) (s : State), ∃ t b, exec (.subnVxVy x y) s = .next t ∧
    WritesResultThenFlag s t x b (if (s.readV y).toNat < (s.readV x).toNat then 0x00 else 0x01) ∧
    b.toNat = (256 + (s.readV y).toNat - (s.readV x).toNat) % 256)

/-- R128: `shr vx` halves `V[x]` and leaves its old bit 0 in VF; with `x = 15` the flag is written first and
shifted away, so VF ends as 0. `V[y]` and everything else but PC stay. -/
def Obligations.ShiftRightHalvesAndKeepsTheLowBit : Prop :=
  (∀ x y : BitVec 4, decode (0x8#4 ++ x) (y ++ 0x6#4) = .shrVx x.toFin y.toFin) ∧
  (∀ (x y : Reg) (s : State), ∃ t, exec (.shrVx x y) s = .next t ∧
    (x ≠ Reg.vf → (t.readV x).toNat = (s.readV x).toNat / 2 ∧
      (t.readV Reg.vf).toNat = (s.readV x).toNat % 2) ∧
    (x = Reg.vf → t.readV Reg.vf = 0x00) ∧
    (∀ r, r ≠ x → r ≠ Reg.vf → t.readV r = s.readV r) ∧ t = { s with v := t.v, pc := s.pc + 2 })

/-- R130: `shl vx` doubles `V[x]` modulo 256 and leaves its old bit `SHL_FLAG_BIT` in VF, which is bit 0 in
this hardware; with `x = 15` the flag is written first and doubled. With `SHL_FLAG_BIT = 7` the shift
would leave old bit 7. `V[y]` and everything else but PC stay. -/
def Obligations.ShiftLeftDoublesAndCopiesTheFlagBit : Prop :=
  Config.shlFlagBit.index = 0 ∧
  (∀ x y : BitVec 4, decode (0x8#4 ++ x) (y ++ 0xE#4) = .shlVx x.toFin y.toFin) ∧
  (∀ (x y : Reg) (s : State), ∃ t, exec (.shlVx x y) s = .next t ∧
    (x ≠ Reg.vf → (t.readV x).toNat = 2 * (s.readV x).toNat % 256 ∧
      (t.readV Reg.vf).toNat = (s.readV x).toNat % 2) ∧
    (x = Reg.vf → (t.readV Reg.vf).toNat = 2 * ((s.readV x).toNat % 2)) ∧
    (∀ r, r ≠ x → r ≠ Reg.vf → t.readV r = s.readV r) ∧ t = { s with v := t.v, pc := s.pc + 2 }) ∧
  (∀ (x : Reg) (s t : State), shiftLeft .bit7 x s = t →
    (x ≠ Reg.vf → (t.readV x).toNat = 2 * (s.readV x).toNat % 256 ∧
      (t.readV Reg.vf).toNat = (s.readV x).toNat / 128) ∧
    (x = Reg.vf → (t.readV Reg.vf).toNat = 2 * ((s.readV x).toNat / 128)))

/-- R132, with the draw as the model supplies it (log 1): `rnd vx, kk` always completes, leaves the drawn
byte AND `kk` in `V[x]`, so that every bit outside `kk` is 0, uses up one draw, and changes nothing else
but PC. -/
def Obligations.RandomAndMasksTheDrawnByte : Prop :=
  (∀ (x : BitVec 4) (kk : Byte), decode (0xC#4 ++ x) kk = .rndVxKk x.toFin kk) ∧
  (∀ (x : Reg) (kk : Byte) (s : State), ∃ t, exec (.rndVxKk x kk) s = .next t ∧
    t.readV x = s.rndByte &&& kk ∧ (∀ k, kk.getLsbD k = false → (t.readV x).getLsbD k = false) ∧
    (∀ r, r ≠ x → t.readV r = s.readV r) ∧
    t = { s with v := t.v, draws := s.draws + 1, pc := s.pc + 2 })

/-! ### Index register, timers, memory -/

/-- R140, R141: `ld i, nnn` sets I to `nnn`; `add i, vx` leaves `(I + V[x]) mod 2^16` in I, neither masked
to 12 bits nor setting VF; nothing else but PC changes. -/
def Obligations.IndexRegisterInstructions : Prop :=
  (∀ (hi : BitVec 4) (lo : Byte), decode (0xA#4 ++ hi) lo = .ldI ((hi ++ lo).setWidth 16)) ∧
  (∀ x : BitVec 4, decode (0xF#4 ++ x) 0x1E = .addIVx x.toFin) ∧
  (∀ nnn s, exec (.ldI nnn) s = .next { s with i := nnn, pc := s.pc + 2 }) ∧
  (∀ (x : Reg) (s : State), ∃ w : Word, w.toNat = (s.i.toNat + (s.readV x).toNat) % 65536 ∧
    exec (.addIVx x) s = .next { s with i := w, pc := s.pc + 2 })

/-- R143, R144: `ld dt, vx` and `ld st, vx` copy `V[x]` into the timer and change nothing else but PC. -/
def Obligations.TimerWritesCopyTheRegister : Prop :=
  (∀ x : BitVec 4, decode (0xF#4 ++ x) 0x15 = .ldDtVx x.toFin ∧
    decode (0xF#4 ++ x) 0x18 = .ldStVx x.toFin) ∧
  (∀ x s, exec (.ldDtVx x) s = .next { s with dt := s.readV x, pc := s.pc + 2 }) ∧
  (∀ x s, exec (.ldStVx x) s = .next { s with st := s.readV x, pc := s.pc + 2 })

/-- R145: with I + 3 at most 4096, `ld b, vx` stores the hundreds, tens and ones of `V[x]` at I, I+1, I+2,
each at most 9, and together they are `V[x]`; every other byte stays. Beyond that it raises `MemoryBounds`
and nothing is written. -/
def Obligations.DecimalStoreWritesThreeDigits : Prop :=
  (∀ x : BitVec 4, decode (0xF#4 ++ x) 0x33 = .ldBVx x.toFin) ∧
  (∀ (x : Reg) (s : State), s.mem.wf = true → s.i.toNat + 3 ≤ 4096 →
    ∃ t, exec (.ldBVx x) s = .next t ∧ StoresAtI s t 3 ∧
      (t.readByte s.i.toNat).toNat = (s.readV x).toNat / 100 ∧
      (t.readByte (s.i.toNat + 1)).toNat = (s.readV x).toNat / 10 % 10 ∧
      (t.readByte (s.i.toNat + 2)).toNat = (s.readV x).toNat % 10 ∧
      (t.readByte s.i.toNat).toNat ≤ 2 ∧
      100 * (t.readByte s.i.toNat).toNat + 10 * (t.readByte (s.i.toNat + 1)).toNat +
        (t.readByte (s.i.toNat + 2)).toNat = (s.readV x).toNat) ∧
  (∀ (x : Reg) (s : State), 4096 < s.i.toNat + 3 →
    exec (.ldBVx x) s = .next { s with fault := .memoryBounds })

/-- R146: with I + x at most 4095, `ld [i], vx` stores `V[k]` at I + k for every k up to x; every other
byte and I stay. Beyond that it raises `MemoryBounds` and no byte is written. -/
def Obligations.RegisterStoreCopiesRegistersToMemory : Prop :=
  (∀ x : BitVec 4, decode (0xF#4 ++ x) 0x55 = .ldMemVx x.toFin) ∧
  (∀ (x : Reg) (s : State), s.mem.wf = true → s.i.toNat + x.val ≤ 4095 →
    ∃ t, exec (.ldMemVx x) s = .next t ∧ StoresAtI s t (x.val + 1) ∧
      ∀ k : Reg, k.val ≤ x.val → t.readByte (s.i.toNat + k.val) = s.readV k) ∧
  (∀ (x : Reg) (s : State), 4095 < s.i.toNat + x.val →
    exec (.ldMemVx x) s = .next { s with fault := .memoryBounds })

/-- R147: with I + x at most 4095, `ld vx, [i]` loads `V[k]` from I + k for every k up to x; registers above
x, I and memory stay. Beyond that it raises `MemoryBounds` and no register is written. -/
def Obligations.RegisterLoadCopiesMemoryToRegisters : Prop :=
  (∀ x : BitVec 4, decode (0xF#4 ++ x) 0x65 = .ldVxMem x.toFin) ∧
  (∀ (x : Reg) (s : State), s.i.toNat + x.val ≤ 4095 →
    ∃ t, exec (.ldVxMem x) s = .next t ∧
      (∀ k : Reg, k.val ≤ x.val → t.readV k = s.readByte (s.i.toNat + k.val)) ∧
      (∀ k : Reg, x.val < k.val → t.readV k = s.readV k) ∧ t = { s with v := t.v, pc := s.pc + 2 }) ∧
  (∀ (x : Reg) (s : State), 4095 < s.i.toNat + x.val →
    exec (.ldVxMem x) s = .next { s with fault := .memoryBounds })

/-- What `ld [i], vx` stores, `ld vx, [i]` loads back, in any later state with the same memory and I. -/
def Obligations.StoredRegistersLoadBack : Prop :=
  ∀ (x : Reg) (s t u : State), s.mem.wf = true → s.i.toNat + x.val ≤ 4095 →
    exec (.ldMemVx x) s = .next t → u.mem = t.mem → u.i = s.i →
    ∃ w, exec (.ldVxMem x) u = .next w ∧
      ∀ k : Reg, w.readV k = if k.val ≤ x.val then s.readV k else u.readV k

/-- R53: the fetch after a register store, a decimal store or a load by the host sees the stored bytes:
wherever PC then points, each of the two bytes is the one stored at that address, or the byte that was
there before. -/
def Obligations.FetchSeesEveryStore : Prop :=
  (∀ (x : Reg) (s t : State) (p : Word), s.mem.wf = true → s.i.toNat + x.val ≤ 4095 → p.toNat ≤ 0xFFE →
    exec (.ldMemVx x) s = .next t →
    t.FetchReads p fun a =>
      if h : s.i.toNat ≤ a ∧ a ≤ s.i.toNat + x.val then s.readV ⟨a - s.i.toNat, by have := x.isLt; omega⟩
      else s.readByte a) ∧
  (∀ (x : Reg) (s t : State) (p : Word), s.mem.wf = true → s.i.toNat + 3 ≤ 4096 → p.toNat ≤ 0xFFE →
    exec (.ldBVx x) s = .next t →
    t.FetchReads p fun a =>
      if a = s.i.toNat then s.readV x / 100
      else if a = s.i.toNat + 1 then s.readV x / 10 % 10
      else if a = s.i.toNat + 2 then s.readV x % 10
      else s.readByte a) ∧
  (∀ (s t : State) (addr : Nat) (bs : List Byte) (p : Word), s.mem.wf = true → p.toNat ≤ 0xFFE →
    s.load addr bs = .ok t →
    t.FetchReads p fun a =>
      if h : addr ≤ a ∧ a < addr + bs.length then bs[a - addr] else s.readByte a)

/-- R42, R43: an access of `n` bytes is legal exactly when `addr + n` is at most 4096, computed without
wrap; a legal read gives the bytes in order; a legal write puts them there and leaves every other byte; an
illegal one raises `MemoryBounds` and gives or changes nothing. -/
def Obligations.AccessesAreBoundsCheckedAsAWhole : Prop :=
  (∀ (s : State) (addr : Word) (n : Nat), addr.toNat + n ≤ 4096 →
    ∃ bs, s.memRead addr n = .ok bs ∧ bs.length = n ∧
      ∀ k (h : k < bs.length), bs[k] = s.readByte (addr.toNat + k)) ∧
  (∀ (s : State) (addr : Word) (n : Nat), 4096 < addr.toNat + n →
    s.memRead addr n = .error .memoryBounds) ∧
  (∀ (s : State) (addr : Word) (bs : List Byte), s.mem.wf = true → addr.toNat + bs.length ≤ 4096 →
    ∃ t, s.memWrite addr bs = .ok t ∧ t = { s with mem := t.mem } ∧
      (∀ k (h : k < bs.length), t.readByte (addr.toNat + k) = bs[k]) ∧
      (∀ a, a < addr.toNat ∨ addr.toNat + bs.length ≤ a → t.readByte a = s.readByte a)) ∧
  (∀ (s : State) (addr : Word) (bs : List Byte), 4096 < addr.toNat + bs.length →
    s.memWrite addr bs = .error .memoryBounds)

/-- Two memories in canonical form that read the same at every address are the same data (log 6). -/
def Obligations.CanonicalMemoriesThatReadAlikeAreEqual : Prop :=
  ∀ m₁ m₂ : Memory, m₁.wf = true → m₂.wf = true → (∀ a, m₁.read a = m₂.read a) → m₁ = m₂

/-! ### Placeholders and UNKNOWN -/

/-- R160 to R164: cls, drw, `ld vx, k` and `ld f, vx` change no machine state but PC, which takes the
default update at once, and emit one event with their decoded operand fields. (`extReq` is the model's
record of the port `ext_req`: log 2.) -/
def Obligations.PlaceholdersOnlyEmitARequest : Prop :=
  (∀ a : BitVec 4, decode (0x0#4 ++ a) 0xE0 = .cls) ∧
  (∀ x y n : BitVec 4, decode (0xD#4 ++ x) (y ++ n) = .drw x.toFin y.toFin n.toNat) ∧
  (∀ x : BitVec 4, decode (0xF#4 ++ x) 0x0A = .ldVxK x.toFin ∧
    decode (0xF#4 ++ x) 0x29 = .ldFVx x.toFin) ∧
  (∀ s, exec .cls s = .next { s with pc := s.pc + 2, extReq := s.extReq ++ [.clearScreen] }) ∧
  (∀ x y n s, exec (.drw x y n) s =
    .next { s with pc := s.pc + 2, extReq := s.extReq ++ [.drawSprite x y n] }) ∧
  (∀ x s, exec (.ldVxK x) s = .next { s with pc := s.pc + 2, extReq := s.extReq ++ [.waitKey x] }) ∧
  (∀ x s, exec (.ldFVx x) s =
    .next { s with pc := s.pc + 2, extReq := s.extReq ++ [.digitAddress x] })

/-- R165: every word that matches no instruction decodes to UNKNOWN, and executing UNKNOWN changes only PC,
by the default update: no fault and no event. -/
def Obligations.UnknownOnlyAdvancesPc : Prop :=
  (∀ op : Word, (∀ row ∈ opcodeRows, selects op row = false) → decodeWord op = .unknown) ∧
  (∀ s, exec .unknown s = .next { s with pc := s.pc + 2 })

/-- The corner case of R165: wherever the two bytes at PC are 0x00 a step changes nothing but PC; so a core
stepped from reset with no program loaded changes nothing but PC for 1792 steps, two bytes at a time from
0x200 to 0x1000, and the next step faults with `MemoryBounds`. -/
def Obligations.EmptyMemoryWalksToTheTopAndFaults : Prop :=
  (∀ s : State, s.fault = .none → s.pc.toNat ≤ 0xFFE → s.readByte s.pc.toNat = 0x00 →
    s.readByte (s.pc.toNat + 1) = 0x00 → step s = .next { s with pc := s.pc + 2 }) ∧
  (∀ k ≤ 1792, core.run k core.reset =
    .next { State.reset with pc := BitVec.ofNat 16 (0x200 + 2 * k) }) ∧
  core.run 1793 core.reset = .next { State.reset with pc := 0x1000, fault := .memoryBounds }

/-! ### The step, faults and halting -/

/-- R171: with the latch clear a step fetches the two bytes at PC, decodes them and executes the
instruction; the driver gets `Ok`, or `Fault(f)` when the latch was set; with the latch set it gets
`Halted` and nothing changes. -/
def Obligations.StepRunsTheDecodedInstruction : Prop :=
  (∀ s : State, s.fault = .none → s.pc.toNat ≤ 0xFFE →
    step s = exec (decode (s.readByte s.pc.toNat) (s.readByte (s.pc.toNat + 1))) s) ∧
  (∀ s : State, s.fault = .none → 0xFFE < s.pc.toNat →
    step s = .next { s with fault := .memoryBounds }) ∧
  (∀ s t : State, step s = .next t →
    drive s .step = (t, if t.fault = .none then .ok else .fault t.fault)) ∧
  (∀ s : State, s.fault ≠ .none → drive s .step = (s, .halted))

/-- "a step from a state with `FAULT = None` always produces exactly one outcome": no instruction, in no
state, is refused or stops the machine; every one gives a next state. -/
def Obligations.EveryInstructionGivesANextState : Prop :=
  (∀ (i : Instr) (s : State), ∃ t, exec i s = .next t) ∧
  (∀ s : State, s.fault = .none ↔ ∃ t, step s = .next t)

/-- R170: which fault a step raises: `MemoryBounds` when PC is above 0x0FFE; else what the table says of
the decoded instruction; the latch stays clear otherwise. PC and I are unchanged by a fault, and the codes are
0 to 3. -/
def Obligations.FaultsAreExactlyThoseOfTheTable : Prop :=
  (FaultCode.none.code = 0 ∧ FaultCode.stackUnderflow.code = 1 ∧ FaultCode.stackOverflow.code = 2 ∧
    FaultCode.memoryBounds.code = 3) ∧
  ∀ s t : State, step s = .next t →
    (t.fault = if 0xFFE < s.pc.toNat then .memoryBounds
      else (decode (s.readByte s.pc.toNat) (s.readByte (s.pc.toNat + 1))).faultIn s) ∧
    (t.fault ≠ .none → t.pc = s.pc ∧ t.i = s.i)

/-- R173: the faulting step changes nothing but the latch. -/
def Obligations.FaultsChangeNothingButTheLatch : Prop :=
  ∀ s t : State, step s = .next t → t.fault ≠ .none → t = { s with fault := t.fault }

/-- R175: a step of a core whose latch is set returns `Halted` and changes nothing; once set, the latch keeps
its value, and the registers, PC, I and the stack theirs, through any sequence of steps and host operations
without a reset; a reset clears it. -/
def Obligations.AHaltedCoreStaysHaltedUntilReset : Prop :=
  (∀ (calls : List DriverCall) (s : State), s.fault ≠ .none → DriverCall.reset ∉ calls →
    (driveAll s calls).fault = s.fault ∧ (driveAll s calls).v = s.v ∧ (driveAll s calls).pc = s.pc ∧
    (driveAll s calls).i = s.i ∧ (driveAll s calls).sp = s.sp ∧
    (driveAll s calls).stack = s.stack) ∧
  (∀ s : State, s.fault ≠ .none → drive s .step = (s, .halted)) ∧
  (∀ s : State, (drive s .reset).1.fault = .none)

/-- R44: a fetch with PC above 0x0FFE faults and changes only the latch; an instruction at 0x0FFE that takes
the default update runs normally and leaves PC at 0x1000, and the next step faults there: PC does not wrap
to address 0. -/
def Obligations.FetchFaultsAboveTheLastSlot : Prop :=
  (∀ s : State, s.fault = .none → 0xFFE < s.pc.toNat →
    step s = .next { s with fault := .memoryBounds }) ∧
  (∀ (s : State) (i : Instr), s.fault = .none → s.pc = 0xFFE →
    i = decode (s.readByte 0xFFE) (s.readByte 0xFFF) → i.faultIn s = .none → i.nextPc s = s.pc + 2 →
    ∃ t, step s = .next t ∧ exec i s = .next t ∧ t.fault = .none ∧ t.pc = 0x1000 ∧
      step t = .next { t with fault := .memoryBounds })

/-! ### What no instruction may change -/

/-- R13: when an instruction does not fault it leaves PC as the table says, jump, indexed jump, call,
return, skip or default; when it faults PC is unchanged. -/
def Obligations.PcFollowsTheSequencerTable : Prop :=
  ∀ (i : Instr) (s t : State), exec i s = .next t →
    t.pc = if i.faultIn s = .none then i.nextPc s else s.pc

/-- The natural wrap of PC is never observed: an instruction that a step fetched and that does not set PC
outright moves it up by exactly 2 or 4 as numbers, to at most 0x1002. -/
def Obligations.DefaultAndSkipUpdatesNeverWrap : Prop :=
  ∀ s t : State, step s = .next t → t.fault = .none →
    (decode (s.readByte s.pc.toNat) (s.readByte (s.pc.toNat + 1))).redirects = false →
    (t.pc.toNat = s.pc.toNat + 2 ∨ t.pc.toNat = s.pc.toNat + 4) ∧ t.pc.toNat ≤ 0x1002

/-- R10, R11: an instruction writes no general register but those the table names for it; VF in particular
is written only as a flag by the five or as a named destination. -/
def Obligations.RegistersChangeOnlyWhereTheTableSays : Prop :=
  ∀ (i : Instr) (s t : State) (r : Reg), exec i s = .next t → i.writesReg r = false →
    t.readV r = s.readV r

/-- R47: no instruction changes a byte of memory but Fx33 and Fx55, and those only their bytes from I
on. -/
def Obligations.MemoryChangesOnlyWhereStored : Prop :=
  ∀ (i : Instr) (s t : State) (a : Nat), exec i s = .next t →
    (a < s.i.toNat ∨ s.i.toNat + i.storeLength ≤ a) → t.readByte a = s.readByte a

/-- R16, R18, R19, R20: I changes only by `ld i` and `add i`; the stack and SP only by `call` and `ret`; DT
only by `ld dt`; ST only by `ld st`; the key map by no instruction. -/
def Obligations.SpecialStateChangesOnlyByItsInstructions : Prop :=
  ∀ (i : Instr) (s t : State), exec i s = .next t →
    ((∀ nnn, i ≠ .ldI nnn) → (∀ x, i ≠ .addIVx x) → t.i = s.i) ∧
    ((∀ nnn, i ≠ .call nnn) → i ≠ .ret → t.stack = s.stack ∧ t.sp = s.sp) ∧
    ((∀ x, i ≠ .ldDtVx x) → t.dt = s.dt) ∧ ((∀ x, i ≠ .ldStVx x) → t.st = s.st) ∧ t.keys = s.keys

/-- R17: stack entries at and above SP are never read: two states that differ only there step to states
that differ only there. -/
def Obligations.DeadStackSlotsAreNeverRead : Prop :=
  ∀ s t u : State, SameLive s u → step s = .next t → ∃ w, step u = .next w ∧ SameLive t w

/-- The core takes nothing back from the port `ext_req` (R160): what was emitted before changes nothing in
a step but the record itself, to which a step only appends. -/
def Obligations.RequestsAreOutputOnly : Prop :=
  ∀ s t : State, step s = .next t → ∃ out, t.extReq = s.extReq ++ out ∧ out.length ≤ 1 ∧
    ∀ before, step { s with extReq := before } = .next { t with extReq := before ++ out }

/-- R207: the one exception to a step being a function of the machine state is the byte drawn by `rnd`: on
any other instruction the supply of draws is neither read nor used. -/
def Obligations.OnlyRndDependsOnTheDraw : Prop :=
  ∀ s t : State, step s = .next t →
    (∀ x kk, decode (s.readByte s.pc.toNat) (s.readByte (s.pc.toNat + 1)) ≠ .rndVxKk x kk) →
    ∀ d, step { s with draws := d } = .next { t with draws := d }

/-! ### The invariant -/

/-- The reset state has the invariant. -/
def Obligations.InvariantHoldsAtReset : Prop := State.reset.Inv

/-- Every step from every state with the invariant gives a state with the invariant: memory stays canonical
within 0..4095, PC stays at most 0x10FE, every valid stack entry stays a return address. -/
def Obligations.EveryStepKeepsTheInvariant : Prop :=
  ∀ s t : State, s.Inv → step s = .next t → t.Inv

/-- Every driver call, a step or a host operation, from every state with the invariant leaves a state with
the invariant; and so every state that any sequence of calls reaches from reset has it. -/
def Obligations.EveryDriverCallKeepsTheInvariant : Prop :=
  (∀ (s : State) (c : DriverCall), s.Inv → (drive s c).1.Inv) ∧ ∀ s : State, Reachable s → s.Inv

/-! ### Host operations -/

/-- R183: a load that fits copies the buffer and changes nothing else, PC not either; one that does not
fails with `LoadOverflow` and changes nothing; the default address is 0x200. -/
def Obligations.LoadCopiesTheBufferOrFails : Prop :=
  (∀ (s : State) (addr : Nat) (bs : List Byte), s.mem.wf = true → addr + bs.length ≤ 4096 →
    ∃ t, drive s (.load addr bs) = (t, .done) ∧ t = { s with mem := t.mem } ∧
      (∀ k (h : k < bs.length), t.readByte (addr + k) = bs[k]) ∧
      (∀ a, a < addr ∨ addr + bs.length ≤ a → t.readByte a = s.readByte a)) ∧
  (∀ (s : State) (addr : Nat) (bs : List Byte), 4096 < addr + bs.length →
    drive s (.load addr bs) = (s, .failed .loadOverflow)) ∧
  (∀ (s : State) (rom : List Byte), s.loadRom rom = s.load 0x200 rom)

/-- R184: a legal range yields one variant per two-byte slot, in order; any other range is rejected with
`RangeError`; no state changes. -/
def Obligations.DisassemblyDecodesEverySlot : Prop :=
  (∀ (s : State) (start stop : Nat), start ≤ stop → stop ≤ 4096 → (stop - start) % 2 = 0 →
    ∃ l : List Instr, drive s (.disasm start stop) = (s, .variants l) ∧ 2 * l.length = stop - start ∧
      ∀ k (h : k < l.length),
        l[k] = decode (s.readByte (start + 2 * k)) (s.readByte (start + 2 * k + 1))) ∧
  (∀ (s : State) (start stop : Nat), ¬ (start ≤ stop ∧ stop ≤ 4096 ∧ (stop - start) % 2 = 0) →
    drive s (.disasm start stop) = (s, .failed .rangeError))

/-- R185, R186: `key_set` of a key 0 to 15 changes that key and nothing else, of a key above 15 it fails
with `KeyRange` and changes nothing; the timers read back and take any byte, nothing else changing. -/
def Obligations.KeysAndTimersAreTheDriversToSet : Prop :=
  (∀ (s : State) (k : Nat) (p : Bool) (_ : k < 16), ∃ t, drive s (.keySet k p) = (t, .done) ∧
    t = { s with keys := t.keys } ∧ t.keys[k] = p ∧
    ∀ j (h : j < 16), j ≠ k → t.keys[j] = s.keys[j]) ∧
  (∀ (s : State) (k : Nat) (p : Bool), 16 ≤ k → drive s (.keySet k p) = (s, .failed .keyRange)) ∧
  (∀ (s : State) (b : Byte), drive s (.dtSet b) = ({ s with dt := b }, .done) ∧
    drive s (.stSet b) = ({ s with st := b }, .done) ∧
    drive s .dtGet = (s, .value s.dt) ∧ drive s .stGet = (s, .value s.st))

/-- Apart from reset and step, no driver call writes V, I, PC, SP, the stack or the latch, halted or not
(R187, R188), and none draws a byte or emits a request. -/
def Obligations.HostOperationsLeaveTheCoreRegistersAlone : Prop :=
  ∀ (c : DriverCall) (s : State), c ≠ .step → c ≠ .reset →
    (drive s c).1 = { s with
      mem := (drive s c).1.mem, dt := (drive s c).1.dt, st := (drive s c).1.st,
      keys := (drive s c).1.keys }

/-! ### The sound timer -/

/-- R144, "No instruction reads ST": with another value in ST a step leaves the same state with that value
in ST, and `ld st` leaves the very same state. -/
def Obligations.NoInstructionReadsTheSoundTimer : Prop :=
  (∀ (s t : State) (b : Byte), step s = .next t →
    (∀ x, decode (s.readByte s.pc.toNat) (s.readByte (s.pc.toNat + 1)) ≠ .ldStVx x) →
    step { s with st := b } = .next { t with st := b }) ∧
  (∀ (x : Reg) (s : State) (b : Byte), exec (.ldStVx x) { s with st := b } = exec (.ldStVx x) s)
end

