-- ==== Sys2Proof/Laws/Decode.lean ====
section
/-! SUPPORT. The operand fields as arithmetic, and what each field of a word built from nibbles, bytes or
the encoder's formats reads as. -/

namespace Sys2Proof

/-! ### Fields and words as numbers -/

theorem append_toNat {m n : Nat} (a : BitVec m) (b : BitVec n) :
    (a ++ b).toNat = a.toNat * 2 ^ n + b.toNat := by
  rw [BitVec.toNat_append, ← Nat.shiftLeft_add_eq_or_of_lt b.isLt, Nat.shiftLeft_eq]

theorem fieldFamily_toNat (op : Word) : (fieldFamily op).toNat = op.toNat / 4096 % 16 := by
  simp [fieldFamily, Nat.shiftRight_eq_div_pow]

theorem fieldX_val (op : Word) : (fieldX op).val = op.toNat / 256 % 16 := by
  change (op.extractLsb' 8 4).toNat = _
  simp [Nat.shiftRight_eq_div_pow]

theorem fieldY_val (op : Word) : (fieldY op).val = op.toNat / 16 % 16 := by
  change (op.extractLsb' 4 4).toNat = _
  simp [Nat.shiftRight_eq_div_pow]

theorem fieldKk_toNat (op : Word) : (fieldKk op).toNat = op.toNat % 256 := by
  simp [fieldKk]

theorem fieldN_toNat (op : Word) : (fieldN op).toNat = op.toNat % 16 := by
  simp [fieldN]

theorem fieldNnn_toNat (op : Word) : (fieldNnn op).toNat = op.toNat % 4096 := by
  have h : (op.extractLsb' 0 12).toNat = op.toNat % 4096 := by simp
  rw [fieldNnn, BitVec.toNat_setWidth, h]
  omega

theorem opcodeWord_toNat (byte1 byte2 : Byte) :
    (opcodeWord byte1 byte2).toNat = byte1.toNat * 256 + byte2.toNat :=
  append_toNat byte1 byte2

theorem nibbles_toNat (hi lo : BitVec 4) : (hi ++ lo : Byte).toNat = hi.toNat * 16 + lo.toNat :=
  append_toNat hi lo

theorem regField_toNat (r : Reg) : (regField r).toNat = r.val := rfl

theorem wordZ_toNat (sub : Byte) : (wordZ sub).toNat = sub.toNat := by
  have h := append_toNat 0x00#8 sub
  exact h.trans (by simp)

theorem wordA_toNat (f : BitVec 4) (nnn : Word) :
    (wordA f nnn).toNat = f.toNat * 4096 + nnn.toNat % 4096 :=
  (append_toNat f (nnn.setWidth 12)).trans (by rw [BitVec.toNat_setWidth]; norm_num)

theorem wordXK_toNat (f : BitVec 4) (x : Reg) (kk : Byte) :
    (wordXK f x kk).toNat = f.toNat * 4096 + x.val * 256 + kk.toNat := by
  have h := append_toNat (f ++ regField x) kk
  rw [append_toNat f (regField x), regField_toNat] at h
  exact h.trans (by ring)

theorem wordXY_toNat (f : BitVec 4) (x y : Reg) (low : BitVec 4) :
    (wordXY f x y low).toNat = f.toNat * 4096 + x.val * 256 + y.val * 16 + low.toNat := by
  have h := append_toNat (f ++ regField x) (regField y ++ low)
  rw [append_toNat f (regField x), append_toNat (regField y) low, regField_toNat, regField_toNat] at h
  exact h.trans (by ring)

/-! ### The fields of an opcode word given by its bytes and nibbles -/

@[simp] theorem fieldFamily_opcodeWord (f a : BitVec 4) (byte2 : Byte) :
    fieldFamily (opcodeWord (f ++ a) byte2) = f := by
  apply BitVec.eq_of_toNat_eq
  rw [fieldFamily_toNat, opcodeWord_toNat, nibbles_toNat]
  omega

@[simp] theorem fieldX_opcodeWord (f a : BitVec 4) (byte2 : Byte) :
    fieldX (opcodeWord (f ++ a) byte2) = a.toFin := by
  apply Fin.ext
  rw [fieldX_val, opcodeWord_toNat, nibbles_toNat]
  change _ = a.toNat
  omega

@[simp] theorem fieldY_opcodeWord (byte1 : Byte) (b c : BitVec 4) :
    fieldY (opcodeWord byte1 (b ++ c)) = b.toFin := by
  apply Fin.ext
  rw [fieldY_val, opcodeWord_toNat, nibbles_toNat]
  change _ = b.toNat
  omega

@[simp] theorem fieldN_opcodeWord (byte1 : Byte) (b c : BitVec 4) :
    fieldN (opcodeWord byte1 (b ++ c)) = c := by
  apply BitVec.eq_of_toNat_eq
  rw [fieldN_toNat, opcodeWord_toNat, nibbles_toNat]
  omega

@[simp] theorem fieldKk_opcodeWord (byte1 byte2 : Byte) : fieldKk (opcodeWord byte1 byte2) = byte2 := by
  apply BitVec.eq_of_toNat_eq
  rw [fieldKk_toNat, opcodeWord_toNat]
  omega

theorem fieldNnn_opcodeWord (f a : BitVec 4) (byte2 : Byte) :
    (fieldNnn (opcodeWord (f ++ a) byte2)).toNat = a.toNat * 256 + byte2.toNat := by
  rw [fieldNnn_toNat, opcodeWord_toNat, nibbles_toNat]
  omega

/-- The address field as the bits R62 names: the low nibble of `byte1` and all of `byte2`. -/
@[simp] theorem fieldNnn_opcodeWord_eq (f a : BitVec 4) (byte2 : Byte) :
    fieldNnn (opcodeWord (f ++ a) byte2) = (a ++ byte2).setWidth 16 := by
  apply BitVec.eq_of_toNat_eq
  rw [fieldNnn_opcodeWord, BitVec.toNat_setWidth, append_toNat]
  omega

/-! ### The fields of the encoder's words -/

@[simp] theorem fieldFamily_wordZ (sub : Byte) : fieldFamily (wordZ sub) = 0#4 := by
  apply BitVec.eq_of_toNat_eq
  rw [fieldFamily_toNat, wordZ_toNat]
  simp; omega

@[simp] theorem fieldKk_wordZ (sub : Byte) : fieldKk (wordZ sub) = sub := by
  apply BitVec.eq_of_toNat_eq
  rw [fieldKk_toNat, wordZ_toNat]
  omega

@[simp] theorem fieldFamily_wordA (f : BitVec 4) (nnn : Word) : fieldFamily (wordA f nnn) = f := by
  apply BitVec.eq_of_toNat_eq
  rw [fieldFamily_toNat, wordA_toNat]
  omega

theorem fieldNnn_wordA (f : BitVec 4) (nnn : Word) (h : addressFits nnn = true) :
    fieldNnn (wordA f nnn) = nnn := by
  have h' : nnn.toNat < 0x1000 := by simpa [addressFits] using h
  apply BitVec.eq_of_toNat_eq
  rw [fieldNnn_toNat, wordA_toNat]
  omega

@[simp] theorem fieldFamily_wordXK (f : BitVec 4) (x : Reg) (kk : Byte) :
    fieldFamily (wordXK f x kk) = f := by
  apply BitVec.eq_of_toNat_eq
  rw [fieldFamily_toNat, wordXK_toNat]
  omega

@[simp] theorem fieldX_wordXK (f : BitVec 4) (x : Reg) (kk : Byte) : fieldX (wordXK f x kk) = x := by
  apply Fin.ext
  rw [fieldX_val, wordXK_toNat]
  omega

@[simp] theorem fieldKk_wordXK (f : BitVec 4) (x : Reg) (kk : Byte) : fieldKk (wordXK f x kk) = kk := by
  apply BitVec.eq_of_toNat_eq
  rw [fieldKk_toNat, wordXK_toNat]
  omega

@[simp] theorem fieldFamily_wordXY (f : BitVec 4) (x y : Reg) (low : BitVec 4) :
    fieldFamily (wordXY f x y low) = f := by
  apply BitVec.eq_of_toNat_eq
  rw [fieldFamily_toNat, wordXY_toNat]
  omega

@[simp] theorem fieldX_wordXY (f : BitVec 4) (x y : Reg) (low : BitVec 4) :
    fieldX (wordXY f x y low) = x := by
  apply Fin.ext
  rw [fieldX_val, wordXY_toNat]
  omega

@[simp] theorem fieldY_wordXY (f : BitVec 4) (x y : Reg) (low : BitVec 4) :
    fieldY (wordXY f x y low) = y := by
  apply Fin.ext
  rw [fieldY_val, wordXY_toNat]
  omega

@[simp] theorem fieldN_wordXY (f : BitVec 4) (x y : Reg) (low : BitVec 4) :
    fieldN (wordXY f x y low) = low := by
  apply BitVec.eq_of_toNat_eq
  rw [fieldN_toNat, wordXY_toNat]
  omega

/-! ### Bytes and words -/

/-- A word's two bytes put together again are the word (20_memory.md R41). -/
@[simp] theorem opcodeWord_highByte_lowByte (op : Word) : opcodeWord (highByte op) (lowByte op) = op := by
  have hh : (highByte op).toNat = op.toNat / 256 % 256 := by
    simp [highByte, Nat.shiftRight_eq_div_pow]
  have hl : (lowByte op).toNat = op.toNat % 256 := by simp [lowByte]
  apply BitVec.eq_of_toNat_eq
  rw [opcodeWord_toNat, hh, hl]
  omega

@[simp] theorem decodeBytes_wordBytes (op : Word) (rest : List Byte) :
    decodeBytes (wordBytes op ++ rest) = .ok (decodeWord op, rest) := by
  simp [wordBytes, decodeBytes, decode]

/-! ### The masks of the opcode map (R73) as arithmetic -/

theorem mask_toNat (op m : Word) (q : Nat) (hq : q < 65536)
    (h : ∀ i < 16, (op.toNat.testBit i && m.toNat.testBit i) = q.testBit i) : (op &&& m).toNat = q := by
  rw [BitVec.toNat_and]
  apply Nat.eq_of_testBit_eq
  intro i
  rw [Nat.testBit_and]
  by_cases hi : i < 16
  · exact h i hi
  · have hlt : ∀ n : Nat, n < 65536 → n.testBit i = false := fun n hn =>
      Nat.testBit_lt_two_pow (lt_of_lt_of_le hn (Nat.pow_le_pow_right (n := 2) (i := 16) (by omega) (by omega)))
    rw [hlt op.toNat op.isLt, hlt q hq, Bool.false_and]

theorem and_F000_toNat (op : Word) : (op &&& 0xF000#16).toNat = op.toNat / 4096 * 4096 := by
  have := op.isLt
  refine mask_toNat op _ _ (by omega) fun i hi => ?_
  interval_cases i <;> simp [Nat.testBit_eq_decide_div_mod_eq] <;> omega

theorem and_F00F_toNat (op : Word) :
    (op &&& 0xF00F#16).toNat = op.toNat / 4096 * 4096 + op.toNat % 16 := by
  have := op.isLt
  refine mask_toNat op _ _ (by omega) fun i hi => ?_
  interval_cases i <;> simp [Nat.testBit_eq_decide_div_mod_eq] <;> omega

theorem and_F0FF_toNat (op : Word) :
    (op &&& 0xF0FF#16).toNat = op.toNat / 4096 * 4096 + op.toNat % 256 := by
  have := op.isLt
  refine mask_toNat op _ _ (by omega) fun i hi => ?_
  interval_cases i <;> simp [Nat.testBit_eq_decide_div_mod_eq] <;> omega

theorem selects_F000 (op m : Word) :
    selects op (0xF000#16, m) = true ↔ op.toNat / 4096 * 4096 = m.toNat := by
  rw [selects, beq_iff_eq, ← BitVec.toNat_inj, and_F000_toNat]

theorem selects_F00F (op m : Word) :
    selects op (0xF00F#16, m) = true ↔ op.toNat / 4096 * 4096 + op.toNat % 16 = m.toNat := by
  rw [selects, beq_iff_eq, ← BitVec.toNat_inj, and_F00F_toNat]

theorem selects_F0FF (op m : Word) :
    selects op (0xF0FF#16, m) = true ↔ op.toNat / 4096 * 4096 + op.toNat % 256 = m.toNat := by
  rw [selects, beq_iff_eq, ← BitVec.toNat_inj, and_F0FF_toNat]

end Sys2Proof
end

