-- ==== Sys2Proof/Laws/Memory.lean ====
section
/-! SUPPORT. Memory: reading after writing, and every write keeps the canonical form. -/

namespace Sys2Proof.Machine

/-! ### The canonical form -/

/-- The canonical form, one entry at a time. -/
theorem Memory.wfFrom_cons (lo a : Nat) (b : Byte) (m : Memory) :
    Memory.wfFrom lo ((a, b) :: m) = true ↔
      lo ≤ a ∧ a < 4096 ∧ b ≠ Memory.unlisted ∧ Memory.wfFrom (a + 1) m = true := by
  simp [Memory.wfFrom, and_assoc]

theorem Memory.wfFrom_mono {lo lo' : Nat} {m : Memory} (h : Memory.wfFrom lo m = true) (hlo : lo' ≤ lo) :
    Memory.wfFrom lo' m = true := by
  cases m with
  | nil => rfl
  | cons e m =>
    obtain ⟨a, b⟩ := e
    rw [Memory.wfFrom_cons] at h ⊢
    exact ⟨hlo.trans h.1, h.2⟩

/-- Addresses below the first listed one are unlisted. -/
theorem Memory.read_below {lo : Nat} {m : Memory} (h : Memory.wfFrom lo m = true) {k : Nat} (hk : k < lo) :
    m.read k = Memory.unlisted := by
  induction m generalizing lo with
  | nil => rfl
  | cons e m ih =>
    obtain ⟨a, b⟩ := e
    rw [Memory.wfFrom_cons] at h
    rw [Memory.read, if_neg (by omega)]
    exact ih h.2.2.2 (by omega)

/-- A write at an existing address keeps the canonical form. -/
theorem Memory.wfFrom_write {lo : Nat} {m : Memory} (h : Memory.wfFrom lo m = true) {k : Nat} (v : Byte)
    (hlo : lo ≤ k) (hk : k < 4096) : Memory.wfFrom lo (m.write k v) = true := by
  induction m generalizing lo with
  | nil =>
    by_cases hv : v = Memory.unlisted
    · simp [Memory.write, hv, Memory.wfFrom]
    · simp [Memory.write, hv, Memory.wfFrom, hlo, hk]
  | cons e m ih =>
    obtain ⟨a, b⟩ := e
    have h' := h
    rw [Memory.wfFrom_cons] at h'
    obtain ⟨h1, h2, h3, h4⟩ := h'
    rw [Memory.write]
    by_cases hka : k < a
    · rw [if_pos hka]
      by_cases hv : v = Memory.unlisted
      · rw [if_pos hv]; exact h
      · rw [if_neg hv, Memory.wfFrom_cons, Memory.wfFrom_cons]
        exact ⟨hlo, hk, hv, hka, h2, h3, h4⟩
    · rw [if_neg hka]
      by_cases hke : k = a
      · rw [if_pos hke]
        by_cases hv : v = Memory.unlisted
        · rw [if_pos hv]; exact Memory.wfFrom_mono h4 (by omega)
        · rw [if_neg hv, Memory.wfFrom_cons]
          exact ⟨hlo, hk, hv, hke ▸ h4⟩
      · rw [if_neg hke, Memory.wfFrom_cons]
        exact ⟨h1, h2, h3, ih h4 (by omega)⟩

theorem Memory.wf_write {m : Memory} (h : m.wf = true) {k : Nat} (v : Byte) (hk : k < 4096) :
    (m.write k v).wf = true :=
  Memory.wfFrom_write h v (Nat.zero_le k) hk

/-- A store of a list of bytes within memory keeps the canonical form. -/
theorem Memory.wf_writeBytes {m : Memory} (h : m.wf = true) (a : Nat) (bs : List Byte)
    (hb : a + bs.length ≤ 4096) : (m.writeBytes a bs).wf = true := by
  induction bs generalizing m a with
  | nil => exact h
  | cons b bs ih =>
    simp only [List.length_cons] at hb
    exact ih (Memory.wf_write h b (by omega)) (a + 1) (by omega)

/-! ### Reading after writing -/

/-- In canonical memory, a read at the written address gives the written value. -/
theorem Memory.read_write_same {lo : Nat} {m : Memory} (h : Memory.wfFrom lo m = true) (k : Nat) (v : Byte) :
    (m.write k v).read k = v := by
  induction m generalizing lo with
  | nil => by_cases hv : v = Memory.unlisted <;> simp [Memory.write, hv, Memory.read]
  | cons e m ih =>
    obtain ⟨a, b⟩ := e
    rw [Memory.wfFrom_cons] at h
    obtain ⟨h1, h2, h3, h4⟩ := h
    rw [Memory.write]
    by_cases hka : k < a
    · rw [if_pos hka]
      by_cases hv : v = Memory.unlisted
      · rw [if_pos hv, Memory.read, if_neg (by omega), Memory.read_below h4 (by omega), hv]
      · rw [if_neg hv, Memory.read, if_pos rfl]
    · rw [if_neg hka]
      by_cases hke : k = a
      · rw [if_pos hke]
        by_cases hv : v = Memory.unlisted
        · rw [if_pos hv, Memory.read_below h4 (by omega), hv]
        · rw [if_neg hv, Memory.read, if_pos rfl]
      · rw [if_neg hke, Memory.read, if_neg (Ne.symm hke)]
        exact ih h4

/-- A write leaves every other address alone. -/
theorem Memory.read_write_ne (m : Memory) {k a : Nat} (v : Byte) (hne : a ≠ k) :
    (m.write k v).read a = m.read a := by
  induction m with
  | nil =>
    by_cases hv : v = Memory.unlisted <;> simp [Memory.write, hv, Memory.read, Ne.symm hne]
  | cons e m ih =>
    obtain ⟨c, b⟩ := e
    rw [Memory.write]
    by_cases hkc : k < c
    · rw [if_pos hkc]
      by_cases hv : v = Memory.unlisted
      · rw [if_pos hv]
      · rw [if_neg hv, Memory.read, if_neg (Ne.symm hne)]
    · rw [if_neg hkc]
      by_cases hke : k = c
      · rw [if_pos hke]
        have hca : ¬ c = a := fun h => hne (by rw [← h, hke])
        by_cases hv : v = Memory.unlisted
        · rw [if_pos hv, Memory.read, if_neg hca]
        · rw [if_neg hv, Memory.read, if_neg (Ne.symm hne), Memory.read, if_neg hca]
      · rw [if_neg hke, Memory.read, Memory.read, ih]

/-- A store of a list of bytes leaves every address outside it alone. -/
theorem Memory.read_writeBytes_outside (m : Memory) (a : Nat) (bs : List Byte) {k : Nat}
    (hk : k < a ∨ a + bs.length ≤ k) : (m.writeBytes a bs).read k = m.read k := by
  induction bs generalizing m a with
  | nil => rfl
  | cons b bs ih =>
    simp only [List.length_cons] at hk
    rw [Memory.writeBytes, ih _ _ (by omega), Memory.read_write_ne _ _ (by omega)]

/-- A store of a list of bytes within canonical memory puts the j-th byte at the j-th address. -/
theorem Memory.read_writeBytes_inside {m : Memory} (h : m.wf = true) (a : Nat) (bs : List Byte)
    (hb : a + bs.length ≤ 4096) {j : Nat} (hj : j < bs.length) :
    (m.writeBytes a bs).read (a + j) = bs[j] := by
  induction bs generalizing m a j with
  | nil => exact absurd hj (by simp)
  | cons b bs ih =>
    simp only [List.length_cons] at hb hj
    have hw := Memory.wf_write h b (k := a) (by omega)
    cases j with
    | zero =>
      rw [Memory.writeBytes, Memory.read_writeBytes_outside _ _ _ (by omega)]
      exact Memory.read_write_same h a b
    | succ j =>
      rw [Memory.writeBytes, show a + (j + 1) = a + 1 + j by omega, ih hw (a + 1) (by omega) (by omega)]
      rfl

@[simp] theorem Memory.length_readBytes (m : Memory) (a n : Nat) : (m.readBytes a n).length = n := by
  induction n generalizing a with
  | zero => rfl
  | succ n ih => simp [Memory.readBytes, ih]

@[simp] theorem Memory.getElem_readBytes (m : Memory) (a n j : Nat) (hj : j < (m.readBytes a n).length) :
    (m.readBytes a n)[j] = m.read (a + j) := by
  induction n generalizing a j with
  | zero => exact absurd hj (by simp)
  | succ n ih =>
    cases j with
    | zero => rfl
    | succ j =>
      simp only [Memory.readBytes, List.getElem_cons_succ]
      rw [ih]
      congr 1
      omega

/-- What a store within canonical memory does to every address, said once. -/
theorem Memory.read_writeBytes {m : Memory} (h : m.wf = true) (a : Nat) (bs : List Byte)
    (hb : a + bs.length ≤ 4096) (k : Nat) :
    (m.writeBytes a bs).read k =
      if hk : a ≤ k ∧ k < a + bs.length then bs[k - a]'(by omega) else m.read k := by
  by_cases hk : a ≤ k ∧ k < a + bs.length
  · rw [dif_pos hk]
    have := Memory.read_writeBytes_inside h a bs hb (j := k - a) (by omega)
    rwa [show a + (k - a) = k by omega] at this
  · rw [dif_neg hk]
    exact Memory.read_writeBytes_outside m a bs (by omega)

end Sys2Proof.Machine
end

