-- ==== Sys2Proof/Laws/State.lean ====
section
/-! SUPPORT. One lemma per field per update of the state, each true by `rfl`, so that no proof unfolds a
record update. -/

namespace Sys2Proof.Machine

variable (s : State)

/-! ### `State.writeV`: `V[r] <- b` -/

@[simp] theorem State.writeV_v (r : Reg) (b : Byte) : (s.writeV r b).v = s.v.set r b := rfl
@[simp] theorem State.writeV_pc (r : Reg) (b : Byte) : (s.writeV r b).pc = s.pc := rfl
@[simp] theorem State.writeV_i (r : Reg) (b : Byte) : (s.writeV r b).i = s.i := rfl
@[simp] theorem State.writeV_stack (r : Reg) (b : Byte) : (s.writeV r b).stack = s.stack := rfl
@[simp] theorem State.writeV_sp (r : Reg) (b : Byte) : (s.writeV r b).sp = s.sp := rfl
@[simp] theorem State.writeV_mem (r : Reg) (b : Byte) : (s.writeV r b).mem = s.mem := rfl
@[simp] theorem State.writeV_dt (r : Reg) (b : Byte) : (s.writeV r b).dt = s.dt := rfl
@[simp] theorem State.writeV_st (r : Reg) (b : Byte) : (s.writeV r b).st = s.st := rfl
@[simp] theorem State.writeV_keys (r : Reg) (b : Byte) : (s.writeV r b).keys = s.keys := rfl
@[simp] theorem State.writeV_fault (r : Reg) (b : Byte) : (s.writeV r b).fault = s.fault := rfl
@[simp] theorem State.writeV_draws (r : Reg) (b : Byte) : (s.writeV r b).draws = s.draws := rfl
@[simp] theorem State.writeV_extReq (r : Reg) (b : Byte) : (s.writeV r b).extReq = s.extReq := rfl

/-! ### `State.writeI`: `I <- w` -/

@[simp] theorem State.writeI_v (w : Word) : (s.writeI w).v = s.v := rfl
@[simp] theorem State.writeI_pc (w : Word) : (s.writeI w).pc = s.pc := rfl
@[simp] theorem State.writeI_i (w : Word) : (s.writeI w).i = w := rfl
@[simp] theorem State.writeI_stack (w : Word) : (s.writeI w).stack = s.stack := rfl
@[simp] theorem State.writeI_sp (w : Word) : (s.writeI w).sp = s.sp := rfl
@[simp] theorem State.writeI_mem (w : Word) : (s.writeI w).mem = s.mem := rfl
@[simp] theorem State.writeI_dt (w : Word) : (s.writeI w).dt = s.dt := rfl
@[simp] theorem State.writeI_st (w : Word) : (s.writeI w).st = s.st := rfl
@[simp] theorem State.writeI_keys (w : Word) : (s.writeI w).keys = s.keys := rfl
@[simp] theorem State.writeI_fault (w : Word) : (s.writeI w).fault = s.fault := rfl
@[simp] theorem State.writeI_draws (w : Word) : (s.writeI w).draws = s.draws := rfl
@[simp] theorem State.writeI_extReq (w : Word) : (s.writeI w).extReq = s.extReq := rfl

/-! ### `State.writeDt`: `DT <- b` -/

@[simp] theorem State.writeDt_v (b : Byte) : (s.writeDt b).v = s.v := rfl
@[simp] theorem State.writeDt_pc (b : Byte) : (s.writeDt b).pc = s.pc := rfl
@[simp] theorem State.writeDt_i (b : Byte) : (s.writeDt b).i = s.i := rfl
@[simp] theorem State.writeDt_stack (b : Byte) : (s.writeDt b).stack = s.stack := rfl
@[simp] theorem State.writeDt_sp (b : Byte) : (s.writeDt b).sp = s.sp := rfl
@[simp] theorem State.writeDt_mem (b : Byte) : (s.writeDt b).mem = s.mem := rfl
@[simp] theorem State.writeDt_dt (b : Byte) : (s.writeDt b).dt = b := rfl
@[simp] theorem State.writeDt_st (b : Byte) : (s.writeDt b).st = s.st := rfl
@[simp] theorem State.writeDt_keys (b : Byte) : (s.writeDt b).keys = s.keys := rfl
@[simp] theorem State.writeDt_fault (b : Byte) : (s.writeDt b).fault = s.fault := rfl
@[simp] theorem State.writeDt_draws (b : Byte) : (s.writeDt b).draws = s.draws := rfl
@[simp] theorem State.writeDt_extReq (b : Byte) : (s.writeDt b).extReq = s.extReq := rfl

/-! ### `State.writeSt`: `ST <- b` -/

@[simp] theorem State.writeSt_v (b : Byte) : (s.writeSt b).v = s.v := rfl
@[simp] theorem State.writeSt_pc (b : Byte) : (s.writeSt b).pc = s.pc := rfl
@[simp] theorem State.writeSt_i (b : Byte) : (s.writeSt b).i = s.i := rfl
@[simp] theorem State.writeSt_stack (b : Byte) : (s.writeSt b).stack = s.stack := rfl
@[simp] theorem State.writeSt_sp (b : Byte) : (s.writeSt b).sp = s.sp := rfl
@[simp] theorem State.writeSt_mem (b : Byte) : (s.writeSt b).mem = s.mem := rfl
@[simp] theorem State.writeSt_dt (b : Byte) : (s.writeSt b).dt = s.dt := rfl
@[simp] theorem State.writeSt_st (b : Byte) : (s.writeSt b).st = b := rfl
@[simp] theorem State.writeSt_keys (b : Byte) : (s.writeSt b).keys = s.keys := rfl
@[simp] theorem State.writeSt_fault (b : Byte) : (s.writeSt b).fault = s.fault := rfl
@[simp] theorem State.writeSt_draws (b : Byte) : (s.writeSt b).draws = s.draws := rfl
@[simp] theorem State.writeSt_extReq (b : Byte) : (s.writeSt b).extReq = s.extReq := rfl

/-! ### `State.loadRegs`: `V[0], V[1], ...` -/

@[simp] theorem State.loadRegs_v (bs : List Byte) : (s.loadRegs bs).v = Vector.ofFn fun r : Fin 16 => bs.getD r (s.readV r) := rfl
@[simp] theorem State.loadRegs_pc (bs : List Byte) : (s.loadRegs bs).pc = s.pc := rfl
@[simp] theorem State.loadRegs_i (bs : List Byte) : (s.loadRegs bs).i = s.i := rfl
@[simp] theorem State.loadRegs_stack (bs : List Byte) : (s.loadRegs bs).stack = s.stack := rfl
@[simp] theorem State.loadRegs_sp (bs : List Byte) : (s.loadRegs bs).sp = s.sp := rfl
@[simp] theorem State.loadRegs_mem (bs : List Byte) : (s.loadRegs bs).mem = s.mem := rfl
@[simp] theorem State.loadRegs_dt (bs : List Byte) : (s.loadRegs bs).dt = s.dt := rfl
@[simp] theorem State.loadRegs_st (bs : List Byte) : (s.loadRegs bs).st = s.st := rfl
@[simp] theorem State.loadRegs_keys (bs : List Byte) : (s.loadRegs bs).keys = s.keys := rfl
@[simp] theorem State.loadRegs_fault (bs : List Byte) : (s.loadRegs bs).fault = s.fault := rfl
@[simp] theorem State.loadRegs_draws (bs : List Byte) : (s.loadRegs bs).draws = s.draws := rfl
@[simp] theorem State.loadRegs_extReq (bs : List Byte) : (s.loadRegs bs).extReq = s.extReq := rfl

/-! ### `State.jumpTo`: `pc <- w` -/

@[simp] theorem State.jumpTo_v (w : Word) : (s.jumpTo w).v = s.v := rfl
@[simp] theorem State.jumpTo_pc (w : Word) : (s.jumpTo w).pc = w := rfl
@[simp] theorem State.jumpTo_i (w : Word) : (s.jumpTo w).i = s.i := rfl
@[simp] theorem State.jumpTo_stack (w : Word) : (s.jumpTo w).stack = s.stack := rfl
@[simp] theorem State.jumpTo_sp (w : Word) : (s.jumpTo w).sp = s.sp := rfl
@[simp] theorem State.jumpTo_mem (w : Word) : (s.jumpTo w).mem = s.mem := rfl
@[simp] theorem State.jumpTo_dt (w : Word) : (s.jumpTo w).dt = s.dt := rfl
@[simp] theorem State.jumpTo_st (w : Word) : (s.jumpTo w).st = s.st := rfl
@[simp] theorem State.jumpTo_keys (w : Word) : (s.jumpTo w).keys = s.keys := rfl
@[simp] theorem State.jumpTo_fault (w : Word) : (s.jumpTo w).fault = s.fault := rfl
@[simp] theorem State.jumpTo_draws (w : Word) : (s.jumpTo w).draws = s.draws := rfl
@[simp] theorem State.jumpTo_extReq (w : Word) : (s.jumpTo w).extReq = s.extReq := rfl

/-! ### `State.countDraw`: one draw used up -/

@[simp] theorem State.countDraw_v : (s.countDraw).v = s.v := rfl
@[simp] theorem State.countDraw_pc : (s.countDraw).pc = s.pc := rfl
@[simp] theorem State.countDraw_i : (s.countDraw).i = s.i := rfl
@[simp] theorem State.countDraw_stack : (s.countDraw).stack = s.stack := rfl
@[simp] theorem State.countDraw_sp : (s.countDraw).sp = s.sp := rfl
@[simp] theorem State.countDraw_mem : (s.countDraw).mem = s.mem := rfl
@[simp] theorem State.countDraw_dt : (s.countDraw).dt = s.dt := rfl
@[simp] theorem State.countDraw_st : (s.countDraw).st = s.st := rfl
@[simp] theorem State.countDraw_keys : (s.countDraw).keys = s.keys := rfl
@[simp] theorem State.countDraw_fault : (s.countDraw).fault = s.fault := rfl
@[simp] theorem State.countDraw_draws : (s.countDraw).draws = s.draws + 1 := rfl
@[simp] theorem State.countDraw_extReq : (s.countDraw).extReq = s.extReq := rfl

/-! ### `State.emit`: one event on `ext_req` -/

@[simp] theorem State.emit_v (e : ExtReq) : (s.emit e).v = s.v := rfl
@[simp] theorem State.emit_pc (e : ExtReq) : (s.emit e).pc = s.pc := rfl
@[simp] theorem State.emit_i (e : ExtReq) : (s.emit e).i = s.i := rfl
@[simp] theorem State.emit_stack (e : ExtReq) : (s.emit e).stack = s.stack := rfl
@[simp] theorem State.emit_sp (e : ExtReq) : (s.emit e).sp = s.sp := rfl
@[simp] theorem State.emit_mem (e : ExtReq) : (s.emit e).mem = s.mem := rfl
@[simp] theorem State.emit_dt (e : ExtReq) : (s.emit e).dt = s.dt := rfl
@[simp] theorem State.emit_st (e : ExtReq) : (s.emit e).st = s.st := rfl
@[simp] theorem State.emit_keys (e : ExtReq) : (s.emit e).keys = s.keys := rfl
@[simp] theorem State.emit_fault (e : ExtReq) : (s.emit e).fault = s.fault := rfl
@[simp] theorem State.emit_draws (e : ExtReq) : (s.emit e).draws = s.draws := rfl
@[simp] theorem State.emit_extReq (e : ExtReq) : (s.emit e).extReq = s.extReq ++ [e] := rfl

/-! ### `State.hostReset`: reset -/

@[simp] theorem State.hostReset_v : (s.hostReset).v = State.reset.v := rfl
@[simp] theorem State.hostReset_pc : (s.hostReset).pc = State.reset.pc := rfl
@[simp] theorem State.hostReset_i : (s.hostReset).i = State.reset.i := rfl
@[simp] theorem State.hostReset_stack : (s.hostReset).stack = State.reset.stack := rfl
@[simp] theorem State.hostReset_sp : (s.hostReset).sp = State.reset.sp := rfl
@[simp] theorem State.hostReset_mem : (s.hostReset).mem = State.reset.mem := rfl
@[simp] theorem State.hostReset_dt : (s.hostReset).dt = State.reset.dt := rfl
@[simp] theorem State.hostReset_st : (s.hostReset).st = State.reset.st := rfl
@[simp] theorem State.hostReset_keys : (s.hostReset).keys = State.reset.keys := rfl
@[simp] theorem State.hostReset_fault : (s.hostReset).fault = State.reset.fault := rfl
@[simp] theorem State.hostReset_draws : (s.hostReset).draws = s.draws := rfl
@[simp] theorem State.hostReset_extReq : (s.hostReset).extReq = s.extReq := rfl

/-! ### The default and skip updates of PC are jumps -/

@[simp] theorem State.advance_eq : s.advance = s.jumpTo (s.pc + 2#16) := rfl

@[simp] theorem State.skipWhen_eq (c : Bool) :
    s.skipWhen c = s.jumpTo (if c then s.pc + 4#16 else s.pc + 2#16) := rfl

@[simp] theorem State.writeVF_eq (b : Byte) : s.writeVF b = s.writeV Reg.vf b := rfl

/-! ### Reads after updates that leave what is read alone -/

@[simp] theorem State.readV_writeI (w : Word) (r : Reg) : (s.writeI w).readV r = s.readV r := rfl
@[simp] theorem State.readV_writeDt (b : Byte) (r : Reg) : (s.writeDt b).readV r = s.readV r := rfl
@[simp] theorem State.readV_writeSt (b : Byte) (r : Reg) : (s.writeSt b).readV r = s.readV r := rfl
@[simp] theorem State.readV_jumpTo (w : Word) (r : Reg) : (s.jumpTo w).readV r = s.readV r := rfl
@[simp] theorem State.readV_countDraw (r : Reg) : s.countDraw.readV r = s.readV r := rfl
@[simp] theorem State.readV_emit (e : ExtReq) (r : Reg) : (s.emit e).readV r = s.readV r := rfl
@[simp] theorem State.readByte_writeV (r : Reg) (b : Byte) (a : Nat) :
    (s.writeV r b).readByte a = s.readByte a := rfl
@[simp] theorem State.readByte_writeI (w : Word) (a : Nat) : (s.writeI w).readByte a = s.readByte a := rfl
@[simp] theorem State.readByte_writeDt (b : Byte) (a : Nat) :
    (s.writeDt b).readByte a = s.readByte a := rfl
@[simp] theorem State.readByte_writeSt (b : Byte) (a : Nat) :
    (s.writeSt b).readByte a = s.readByte a := rfl
@[simp] theorem State.readByte_loadRegs (bs : List Byte) (a : Nat) :
    (s.loadRegs bs).readByte a = s.readByte a := rfl
@[simp] theorem State.readByte_jumpTo (w : Word) (a : Nat) :
    (s.jumpTo w).readByte a = s.readByte a := rfl
@[simp] theorem State.readByte_countDraw (a : Nat) : s.countDraw.readByte a = s.readByte a := rfl
@[simp] theorem State.readByte_emit (e : ExtReq) (a : Nat) : (s.emit e).readByte a = s.readByte a := rfl

end Sys2Proof.Machine
end

