-- ==== Sys2Proof/Laws/Ops.lean ====
section
/-! SUPPORT. One lemma per shared operation that says everything it can do; provers cite these instead of
unfolding the operation. -/

namespace Sys2Proof.Machine

/-! ### Registers -/

@[simp] theorem State.readV_writeV_same (s : State) (r : Reg) (b : Byte) : (s.writeV r b).readV r = b := by
  simp [State.readV, State.writeV]

theorem State.readV_writeV_ne (s : State) {r r' : Reg} (b : Byte) (h : r' ≠ r) :
    (s.writeV r b).readV r' = s.readV r' := by
  have h' : r.val ≠ r'.val := fun e => h (Fin.ext e.symm)
  simp [State.readV, State.writeV, Vector.getElem_set_ne, h']

/-- Every register after one is written. -/
theorem State.readV_writeV (s : State) (r r' : Reg) (b : Byte) :
    (s.writeV r b).readV r' = if r' = r then b else s.readV r' := by
  by_cases h : r' = r
  · subst h; simp
  · rw [if_neg h, State.readV_writeV_ne s b h]

/-- Every register after bytes are loaded into `V[0], V[1], ...`. -/
theorem State.readV_loadRegs (s : State) (bs : List Byte) (r : Reg) :
    (s.loadRegs bs).readV r = bs.getD r (s.readV r) := by
  simp [State.readV, State.loadRegs]

/-- Two register files that read the same are the same. -/
theorem State.v_ext {s t : State} (h : ∀ r : Reg, t.readV r = s.readV r) : t.v = s.v := by
  apply Vector.ext
  intro k hk
  exact h ⟨k, hk⟩

/-! ### Bounds -/

theorem inBounds_iff (addr : Word) (n : Nat) : inBounds addr n = true ↔ addr.toNat + n ≤ 4096 := by
  simp [inBounds]

/-! ### Taking a fault, and the end of an instruction that may fault -/

/-- Everything the end of such an instruction can be. -/
theorem State.orRaise_next {s t : State} {r : Except FaultCode State} (h : s.orRaise r = .next t) :
    r = .ok t ∨ ∃ f, r = .error f ∧ t = { s with fault := f } := by
  cases r with
  | ok u => exact .inl (by simpa [State.orRaise] using h)
  | error f => exact .inr ⟨f, rfl, by simpa [State.orRaise, State.raise] using h.symm⟩

@[simp] theorem State.orRaise_ok (s t : State) : s.orRaise (.ok t) = .next t := rfl

@[simp] theorem State.orRaise_error (s : State) (f : FaultCode) :
    s.orRaise (.error f) = .next { s with fault := f } := rfl

@[simp] theorem except_map_ok {ε α β : Type} (g : α → β) (a : α) :
    (Except.ok a : Except ε α).map g = .ok (g a) := rfl

@[simp] theorem except_map_error {ε α β : Type} (g : α → β) (e : ε) :
    (Except.error e : Except ε α).map g = .error e := rfl

/-! ### Memory access -/

theorem State.memRead_ok {s : State} {addr : Word} {n : Nat} (h : addr.toNat + n ≤ 4096) :
    s.memRead addr n = .ok (s.mem.readBytes addr.toNat n) := by
  rw [State.memRead, if_pos ((inBounds_iff addr n).2 h)]

theorem State.memRead_bounds {s : State} {addr : Word} {n : Nat} (h : 4096 < addr.toNat + n) :
    s.memRead addr n = .error .memoryBounds := by
  rw [State.memRead, if_neg (by rw [inBounds_iff]; omega)]

theorem State.memWrite_ok {s : State} {addr : Word} {bs : List Byte} (h : addr.toNat + bs.length ≤ 4096) :
    s.memWrite addr bs = .ok { s with mem := s.mem.writeBytes addr.toNat bs } := by
  rw [State.memWrite, if_pos ((inBounds_iff addr bs.length).2 h)]

theorem State.memWrite_bounds {s : State} {addr : Word} {bs : List Byte}
    (h : 4096 < addr.toNat + bs.length) : s.memWrite addr bs = .error .memoryBounds := by
  rw [State.memWrite, if_neg (by rw [inBounds_iff]; omega)]

/-- Everything a store can do. -/
theorem State.memWrite_cases (s : State) (addr : Word) (bs : List Byte) :
    (addr.toNat + bs.length ≤ 4096 ∧
      s.memWrite addr bs = .ok { s with mem := s.mem.writeBytes addr.toNat bs }) ∨
    (4096 < addr.toNat + bs.length ∧ s.memWrite addr bs = .error .memoryBounds) := by
  by_cases h : addr.toNat + bs.length ≤ 4096
  · exact .inl ⟨h, State.memWrite_ok h⟩
  · exact .inr ⟨by omega, State.memWrite_bounds (by omega)⟩

/-- Everything a load can do. -/
theorem State.memRead_cases (s : State) (addr : Word) (n : Nat) :
    (addr.toNat + n ≤ 4096 ∧ s.memRead addr n = .ok (s.mem.readBytes addr.toNat n)) ∨
    (4096 < addr.toNat + n ∧ s.memRead addr n = .error .memoryBounds) := by
  by_cases h : addr.toNat + n ≤ 4096
  · exact .inl ⟨h, State.memRead_ok h⟩
  · exact .inr ⟨by omega, State.memRead_bounds (by omega)⟩

theorem State.fetch_ok {s : State} (h : s.pc.toNat ≤ 0xFFE) :
    s.fetch = .ok (s.readByte s.pc.toNat, s.readByte (s.pc.toNat + 1)) := by
  rw [State.fetch, if_pos ((inBounds_iff s.pc 2).2 (by omega))]

theorem State.fetch_bounds {s : State} (h : 0xFFE < s.pc.toNat) : s.fetch = .error .memoryBounds := by
  rw [State.fetch, if_neg (by rw [inBounds_iff]; omega)]

/-! ### The call stack -/

theorem State.push_ok {s : State} (w : Word) (h : s.sp.val < 16) :
    s.push w = .ok { s with stack := s.stack.set s.sp.val w h, sp := ⟨s.sp.val + 1, by omega⟩ } := by
  rw [State.push, dif_pos h]

theorem State.push_full {s : State} (w : Word) (h : s.sp.val = 16) : s.push w = .error .stackOverflow := by
  rw [State.push, dif_neg (by simp only [Config.stackDepth]; omega)]

/-- Everything a push can do. -/
theorem State.push_cases (s : State) (w : Word) :
    (∃ h : s.sp.val < 16,
      s.push w = .ok { s with stack := s.stack.set s.sp.val w h, sp := ⟨s.sp.val + 1, by omega⟩ }) ∨
    (s.sp.val = 16 ∧ s.push w = .error .stackOverflow) := by
  by_cases h : s.sp.val < 16
  · exact .inl ⟨h, State.push_ok w h⟩
  · have := s.sp.isLt
    exact .inr ⟨by omega, State.push_full w (by omega)⟩

theorem State.pop_ok {s : State} (h : 0 < s.sp.val) :
    s.pop = .ok (s.stack[s.sp.val - 1]'(by have := s.sp.isLt; omega),
      { s with sp := ⟨s.sp.val - 1, by have := s.sp.isLt; omega⟩ }) := by
  rw [State.pop, dif_neg (by omega)]

theorem State.pop_empty {s : State} (h : s.sp.val = 0) : s.pop = .error .stackUnderflow := by
  rw [State.pop, dif_pos h]

/-! ### Operand forms -/

theorem zext16_toNat (b : Byte) : (zext16 b).toNat = b.toNat := by
  simp [zext16]; omega

/-- The indexed target as a number; of a well-formed `nnn` the sum never wraps (R102). -/
theorem indexedTarget_toNat (s : State) (nnn : Word) :
    (indexedTarget s nnn).toNat = (nnn.toNat + (s.readV 0).toNat) % 65536 := by
  rw [indexedTarget, BitVec.toNat_add, zext16_toNat]

theorem keyPressed_of_lt (s : State) (k : Byte) (h : k.toNat < 16) :
    keyPressed s k = s.keys[k.toNat] := by
  rw [keyPressed, dif_pos h]

theorem keyPressed_absent (s : State) (k : Byte) (h : 16 ≤ k.toNat) : keyPressed s k = false := by
  rw [keyPressed, dif_neg (by omega)]

@[simp] theorem length_decimalDigits (v : Byte) : (decimalDigits v).length = 3 := rfl

@[simp] theorem length_regsUpTo (s : State) (x : Reg) : (regsUpTo s x).length = x.val + 1 := by
  have := x.isLt
  simp only [regsUpTo, List.length_take, Vector.length_toList]
  omega

@[simp] theorem getElem_regsUpTo (s : State) (x : Reg) (k : Nat) (h : k < (regsUpTo s x).length) :
    (regsUpTo s x)[k] = s.readV ⟨k, by have := x.isLt; rw [length_regsUpTo] at h; omega⟩ := by
  simp [regsUpTo, State.readV]

/-! ### Flags -/

theorem carryOut_iff (a b : Byte) : carryOut a b = true ↔ 256 ≤ a.toNat + b.toNat := by
  have ha := a.isLt
  have hb := b.isLt
  have h : (a.setWidth 9 + b.setWidth 9).toNat = a.toNat + b.toNat := by
    rw [BitVec.toNat_add, BitVec.toNat_setWidth, BitVec.toNat_setWidth]
    omega
  rw [carryOut, BitVec.getLsbD, h, Nat.testBit_eq_decide_div_mod_eq]
  simp only [decide_eq_true_eq]
  omega

theorem notBorrow_iff (a b : Byte) : notBorrow a b = true ↔ b.toNat ≤ a.toNat := by
  simp [notBorrow, BitVec.ult]

theorem shrFlag_iff (a : Byte) : shrFlag a = true ↔ a.toNat % 2 = 1 := by
  rw [shrFlag, BitVec.getLsbD, Nat.testBit_zero]
  simp

/-- Every register after a result and then its flag are written. -/
theorem State.readV_resultThenFlag (s : State) (x r : Reg) (result : Byte) (flag : Bool) :
    (s.resultThenFlag x result flag).readV r =
      if r = Reg.vf then flagByte flag else if r = x then result else s.readV r := by
  rw [State.resultThenFlag, State.writeVF, State.readV_writeV, State.readV_writeV]

/-- Every register after a flag is written and then the register shifted. -/
theorem State.readV_flagThenShift (s : State) (x r : Reg) (flag : Byte → Bool) (shift : Byte → Byte) :
    (s.flagThenShift x flag shift).readV r =
      if r = x then shift (if x = Reg.vf then flagByte (flag (s.readV x)) else s.readV x)
      else if r = Reg.vf then flagByte (flag (s.readV x)) else s.readV r := by
  simp only [State.flagThenShift, State.writeVF, State.readV_writeV]

/-! ### A result and its flag, or a flag and its shift, write nothing but general registers -/

@[simp] theorem State.resultThenFlag_pc (s : State) (x : Reg) (b : Byte) (f : Bool) :
    (s.resultThenFlag x b f).pc = s.pc := rfl
@[simp] theorem State.resultThenFlag_i (s : State) (x : Reg) (b : Byte) (f : Bool) :
    (s.resultThenFlag x b f).i = s.i := rfl
@[simp] theorem State.resultThenFlag_stack (s : State) (x : Reg) (b : Byte) (f : Bool) :
    (s.resultThenFlag x b f).stack = s.stack := rfl
@[simp] theorem State.resultThenFlag_sp (s : State) (x : Reg) (b : Byte) (f : Bool) :
    (s.resultThenFlag x b f).sp = s.sp := rfl
@[simp] theorem State.resultThenFlag_mem (s : State) (x : Reg) (b : Byte) (f : Bool) :
    (s.resultThenFlag x b f).mem = s.mem := rfl
@[simp] theorem State.resultThenFlag_dt (s : State) (x : Reg) (b : Byte) (f : Bool) :
    (s.resultThenFlag x b f).dt = s.dt := rfl
@[simp] theorem State.resultThenFlag_st (s : State) (x : Reg) (b : Byte) (f : Bool) :
    (s.resultThenFlag x b f).st = s.st := rfl
@[simp] theorem State.resultThenFlag_keys (s : State) (x : Reg) (b : Byte) (f : Bool) :
    (s.resultThenFlag x b f).keys = s.keys := rfl
@[simp] theorem State.resultThenFlag_fault (s : State) (x : Reg) (b : Byte) (f : Bool) :
    (s.resultThenFlag x b f).fault = s.fault := rfl
@[simp] theorem State.resultThenFlag_draws (s : State) (x : Reg) (b : Byte) (f : Bool) :
    (s.resultThenFlag x b f).draws = s.draws := rfl
@[simp] theorem State.resultThenFlag_extReq (s : State) (x : Reg) (b : Byte) (f : Bool) :
    (s.resultThenFlag x b f).extReq = s.extReq := rfl
@[simp] theorem State.readByte_resultThenFlag (s : State) (x : Reg) (b : Byte) (f : Bool) (a : Nat) :
    (s.resultThenFlag x b f).readByte a = s.readByte a := rfl
@[simp] theorem State.flagThenShift_pc (s : State) (x : Reg) (f : Byte → Bool) (g : Byte → Byte) :
    (s.flagThenShift x f g).pc = s.pc := rfl
@[simp] theorem State.flagThenShift_i (s : State) (x : Reg) (f : Byte → Bool) (g : Byte → Byte) :
    (s.flagThenShift x f g).i = s.i := rfl
@[simp] theorem State.flagThenShift_stack (s : State) (x : Reg) (f : Byte → Bool) (g : Byte → Byte) :
    (s.flagThenShift x f g).stack = s.stack := rfl
@[simp] theorem State.flagThenShift_sp (s : State) (x : Reg) (f : Byte → Bool) (g : Byte → Byte) :
    (s.flagThenShift x f g).sp = s.sp := rfl
@[simp] theorem State.flagThenShift_mem (s : State) (x : Reg) (f : Byte → Bool) (g : Byte → Byte) :
    (s.flagThenShift x f g).mem = s.mem := rfl
@[simp] theorem State.flagThenShift_dt (s : State) (x : Reg) (f : Byte → Bool) (g : Byte → Byte) :
    (s.flagThenShift x f g).dt = s.dt := rfl
@[simp] theorem State.flagThenShift_st (s : State) (x : Reg) (f : Byte → Bool) (g : Byte → Byte) :
    (s.flagThenShift x f g).st = s.st := rfl
@[simp] theorem State.flagThenShift_keys (s : State) (x : Reg) (f : Byte → Bool) (g : Byte → Byte) :
    (s.flagThenShift x f g).keys = s.keys := rfl
@[simp] theorem State.flagThenShift_fault (s : State) (x : Reg) (f : Byte → Bool) (g : Byte → Byte) :
    (s.flagThenShift x f g).fault = s.fault := rfl
@[simp] theorem State.flagThenShift_draws (s : State) (x : Reg) (f : Byte → Bool) (g : Byte → Byte) :
    (s.flagThenShift x f g).draws = s.draws := rfl
@[simp] theorem State.flagThenShift_extReq (s : State) (x : Reg) (f : Byte → Bool) (g : Byte → Byte) :
    (s.flagThenShift x f g).extReq = s.extReq := rfl
@[simp] theorem State.readByte_flagThenShift (s : State) (x : Reg) (f : Byte → Bool) (g : Byte → Byte) (a : Nat) :
    (s.flagThenShift x f g).readByte a = s.readByte a := rfl

end Sys2Proof.Machine
end

