-- ==== Sys2Proof/Laws/Exec.lean ====
section
/-! SUPPORT. What `exec` answers for each instruction, in terms of the named state updates: an equation
for an instruction that cannot fault, everything it can do for one that can. -/

namespace Sys2Proof.Machine

variable (s : State)

/-! ### Control transfer -/

@[simp] theorem exec_jmp (nnn : Word) : exec (.jmp nnn) s = .next (s.jumpTo nnn) := rfl
@[simp] theorem exec_jmpV0 (nnn : Word) :
    exec (.jmpV0 nnn) s = .next (s.jumpTo (indexedTarget s nnn)) := rfl
@[simp] theorem exec_seVxKk (x : Reg) (kk : Byte) :
    exec (.seVxKk x kk) s = .next (s.skipWhen (s.readV x == kk)) := rfl
@[simp] theorem exec_sneVxKk (x : Reg) (kk : Byte) :
    exec (.sneVxKk x kk) s = .next (s.skipWhen (s.readV x != kk)) := rfl
@[simp] theorem exec_seVxVy (x y : Reg) :
    exec (.seVxVy x y) s = .next (s.skipWhen (s.readV x == s.readV y)) := rfl
@[simp] theorem exec_sneVxVy (x y : Reg) :
    exec (.sneVxVy x y) s = .next (s.skipWhen (s.readV x != s.readV y)) := rfl
@[simp] theorem exec_skpVx (x : Reg) :
    exec (.skpVx x) s = .next (s.skipWhen (keyPressed s (s.readV x))) := rfl
@[simp] theorem exec_sknpVx (x : Reg) :
    exec (.sknpVx x) s = .next (s.skipWhen (!keyPressed s (s.readV x))) := rfl

/-- Everything `call` can do. -/
theorem exec_call_cases (nnn : Word) :
    (∃ h : s.sp.val < 16, exec (.call nnn) s = .next { s with
      pc := nnn, stack := s.stack.set s.sp.val (returnAddress s) h, sp := ⟨s.sp.val + 1, by omega⟩ }) ∨
    (s.sp.val = 16 ∧ exec (.call nnn) s = .next { s with fault := .stackOverflow }) := by
  rcases State.push_cases s (returnAddress s) with ⟨h, e⟩ | ⟨h, e⟩
  · exact .inl ⟨h, by rw [exec, execCall, e, except_map_ok, State.orRaise_ok]; rfl⟩
  · exact .inr ⟨h, by rw [exec, execCall, e, except_map_error, State.orRaise_error]⟩

/-- Everything `ret` can do. -/
theorem exec_ret_cases :
    (∃ _ : 0 < s.sp.val, exec .ret s = .next { s with
      pc := s.stack[s.sp.val - 1]'(by have := s.sp.isLt; omega),
      sp := ⟨s.sp.val - 1, by have := s.sp.isLt; omega⟩ }) ∨
    (s.sp.val = 0 ∧ exec .ret s = .next { s with fault := .stackUnderflow }) := by
  by_cases h : s.sp.val = 0
  · exact .inr ⟨h, by rw [exec, execRet, State.pop_empty h, except_map_error, State.orRaise_error]⟩
  · exact .inl ⟨by omega, by
      rw [exec, execRet, State.pop_ok (by omega), except_map_ok, State.orRaise_ok]; rfl⟩

/-! ### Register and ALU instructions -/

@[simp] theorem exec_ldVxKk (x : Reg) (kk : Byte) :
    exec (.ldVxKk x kk) s = .next (s.writeV x kk).advance := rfl
@[simp] theorem exec_addVxKk (x : Reg) (kk : Byte) :
    exec (.addVxKk x kk) s = .next (s.writeV x (s.readV x + kk)).advance := rfl
@[simp] theorem exec_ldVxVy (x y : Reg) :
    exec (.ldVxVy x y) s = .next (s.writeV x (s.readV y)).advance := rfl
@[simp] theorem exec_orVxVy (x y : Reg) :
    exec (.orVxVy x y) s = .next (s.writeV x (s.readV x ||| s.readV y)).advance := rfl
@[simp] theorem exec_andVxVy (x y : Reg) :
    exec (.andVxVy x y) s = .next (s.writeV x (s.readV x &&& s.readV y)).advance := rfl
@[simp] theorem exec_xorVxVy (x y : Reg) :
    exec (.xorVxVy x y) s = .next (s.writeV x (s.readV x ^^^ s.readV y)).advance := rfl
@[simp] theorem exec_addVxVy (x y : Reg) : exec (.addVxVy x y) s =
    .next (s.resultThenFlag x (s.readV x + s.readV y) (carryOut (s.readV x) (s.readV y))).advance := rfl
@[simp] theorem exec_subVxVy (x y : Reg) : exec (.subVxVy x y) s =
    .next (s.resultThenFlag x (s.readV x - s.readV y) (notBorrow (s.readV x) (s.readV y))).advance := rfl
@[simp] theorem exec_subnVxVy (x y : Reg) : exec (.subnVxVy x y) s =
    .next (s.resultThenFlag x (s.readV y - s.readV x) (notBorrow (s.readV y) (s.readV x))).advance := rfl
@[simp] theorem exec_shrVx (x y : Reg) :
    exec (.shrVx x y) s = .next (s.flagThenShift x shrFlag (· >>> 1)).advance := rfl
@[simp] theorem exec_shlVx (x y : Reg) :
    exec (.shlVx x y) s = .next (s.flagThenShift x (shlFlag .bit0) (· <<< 1)).advance := rfl
@[simp] theorem exec_rndVxKk (x : Reg) (kk : Byte) :
    exec (.rndVxKk x kk) s = .next (s.writeV x (s.rndByte &&& kk)).countDraw.advance := rfl

/-! ### Index register, timers, memory -/

@[simp] theorem exec_ldI (nnn : Word) : exec (.ldI nnn) s = .next (s.writeI nnn).advance := rfl
@[simp] theorem exec_addIVx (x : Reg) :
    exec (.addIVx x) s = .next (s.writeI (s.i + zext16 (s.readV x))).advance := rfl
@[simp] theorem exec_ldVxDt (x : Reg) : exec (.ldVxDt x) s = .next (s.writeV x s.dt).advance := rfl
@[simp] theorem exec_ldDtVx (x : Reg) :
    exec (.ldDtVx x) s = .next (s.writeDt (s.readV x)).advance := rfl
@[simp] theorem exec_ldStVx (x : Reg) :
    exec (.ldStVx x) s = .next (s.writeSt (s.readV x)).advance := rfl

/-- Everything `ld b, vx` can do. -/
theorem exec_ldBVx_cases (x : Reg) :
    (s.i.toNat + 3 ≤ 4096 ∧ exec (.ldBVx x) s = .next { s with
      mem := s.mem.writeBytes s.i.toNat (decimalDigits (s.readV x)), pc := s.pc + 2#16 }) ∨
    (4096 < s.i.toNat + 3 ∧ exec (.ldBVx x) s = .next { s with fault := .memoryBounds }) := by
  rcases State.memWrite_cases s s.i (decimalDigits (s.readV x)) with ⟨h, e⟩ | ⟨h, e⟩
  · exact .inl ⟨h, by rw [exec, execLdBVx, e, except_map_ok, State.orRaise_ok]; rfl⟩
  · exact .inr ⟨h, by rw [exec, execLdBVx, e, except_map_error, State.orRaise_error]⟩

/-- Everything `ld [i], vx` can do. -/
theorem exec_ldMemVx_cases (x : Reg) :
    (s.i.toNat + x.val + 1 ≤ 4096 ∧ exec (.ldMemVx x) s = .next { s with
      mem := s.mem.writeBytes s.i.toNat (regsUpTo s x), pc := s.pc + 2#16 }) ∨
    (4096 < s.i.toNat + x.val + 1 ∧ exec (.ldMemVx x) s = .next { s with fault := .memoryBounds }) := by
  have hl := length_regsUpTo s x
  rcases State.memWrite_cases s s.i (regsUpTo s x) with ⟨h, e⟩ | ⟨h, e⟩
  · exact .inl ⟨by omega, by rw [exec, execLdMemVx, e, except_map_ok, State.orRaise_ok]; rfl⟩
  · exact .inr ⟨by omega, by rw [exec, execLdMemVx, e, except_map_error, State.orRaise_error]⟩

/-- Everything `ld vx, [i]` can do. -/
theorem exec_ldVxMem_cases (x : Reg) :
    (s.i.toNat + x.val + 1 ≤ 4096 ∧ exec (.ldVxMem x) s =
      .next (s.loadRegs (s.mem.readBytes s.i.toNat (x.val + 1))).advance) ∨
    (4096 < s.i.toNat + x.val + 1 ∧ exec (.ldVxMem x) s = .next { s with fault := .memoryBounds }) := by
  rcases State.memRead_cases s s.i (x.val + 1) with ⟨h, e⟩ | ⟨h, e⟩
  · exact .inl ⟨by omega, by rw [exec, execLdVxMem, e, except_map_ok, State.orRaise_ok]⟩
  · exact .inr ⟨by omega, by rw [exec, execLdVxMem, e, except_map_error, State.orRaise_error]⟩

/-! ### Placeholders and UNKNOWN -/

@[simp] theorem exec_cls : exec .cls s = .next (s.emit .clearScreen).advance := rfl
@[simp] theorem exec_drw (x y : Reg) (n : Nat) :
    exec (.drw x y n) s = .next (s.emit (.drawSprite x y n)).advance := rfl
@[simp] theorem exec_ldVxK (x : Reg) : exec (.ldVxK x) s = .next (s.emit (.waitKey x)).advance := rfl
@[simp] theorem exec_ldFVx (x : Reg) : exec (.ldFVx x) s = .next (s.emit (.digitAddress x)).advance := rfl
@[simp] theorem exec_unknown : exec .unknown s = .next s.advance := rfl

end Sys2Proof.Machine
end

