-- ==== Sys2Proof/Laws/HostOps.lean ====
section
/-! SUPPORT. Every operation on a state's memory keeps the canonical form, the host's load among them, and
what a disassembly reads, one slot at a time. -/

namespace Sys2Proof.Machine

/-! ### The canonical form of memory -/

/-- The reset state's memory is canonical. -/
theorem State.reset_mem_wf : State.reset.mem.wf = true := rfl

/-- `MemWrite` keeps the canonical form. -/
theorem State.memWrite_wf {s t : State} {addr : Word} {bs : List Byte} (h : s.mem.wf = true)
    (e : s.memWrite addr bs = .ok t) : t.mem.wf = true := by
  unfold State.memWrite at e
  split at e
  · cases e
    exact Memory.wf_writeBytes h _ _ ((inBounds_iff _ _).1 ‹inBounds _ _ = true›)
  · cases e

/-- A load keeps the canonical form. -/
theorem State.load_wf {s t : State} {addr : Nat} {bs : List Byte} (h : s.mem.wf = true)
    (e : s.load addr bs = .ok t) : t.mem.wf = true := by
  unfold State.load at e
  split at e
  · cases e
    exact Memory.wf_writeBytes h _ _ ‹_›
  · cases e

/-- Placing an instruction word keeps the canonical form. -/
theorem State.withFetchWord_wf {s : State} (h : s.mem.wf = true) (nbits w : Nat) :
    (s.withFetchWord nbits w).mem.wf = true := by
  unfold State.withFetchWord
  split
  · exact Memory.wf_writeBytes h _ _ ((inBounds_iff _ _).1 ‹inBounds _ _ = true›)
  · exact h

/-! ### Disassembly -/

@[simp] theorem State.length_disasmFrom (s : State) (a n : Nat) : (s.disasmFrom a n).length = n := by
  induction n generalizing a with
  | zero => rfl
  | succ n ih => simp [State.disasmFrom, ih]

end Sys2Proof.Machine
end

