-- ==== Sys2Proof/Laws/PerInstr.lean ====
section
/-! SUPPORT. Per instruction: the canonical word the encoder writes selects the instruction's own row of
the opcode map (30_encoding.md R73). -/

namespace Sys2Proof.Laws.CanonicalWord

/-- The word the encoder writes selects the instruction's row: `(op AND mask) = match`. -/
def Statement (i : Instr) : Prop :=
  ∀ row, i.row = some row → selects (encodeWord i) row = true

/-- The statement of an instruction whose row is known. -/
theorem of_row {i : Instr} {row : Word × Word} (hi : i.row = some row)
    (h : selects (encodeWord i) row = true) : Statement i := fun row' h' => by
  rw [hi] at h'
  exact Option.some.inj h' ▸ h

/-! ### One selection lemma per format and mask -/

theorem selects_wordZ (sub : Byte) (m : Word) (hm : m.toNat = sub.toNat) :
    selects (wordZ sub) (0xF0FF#16, m) = true := by
  rw [selects_F0FF, wordZ_toNat, hm]
  omega

theorem selects_wordA (f : BitVec 4) (nnn m : Word) (hm : m.toNat = f.toNat * 4096) :
    selects (wordA f nnn) (0xF000#16, m) = true := by
  rw [selects_F000, wordA_toNat, hm]
  omega

theorem selects_wordXK (f : BitVec 4) (x : Reg) (kk : Byte) (m : Word) (hm : m.toNat = f.toNat * 4096) :
    selects (wordXK f x kk) (0xF000#16, m) = true := by
  rw [selects_F000, wordXK_toNat, hm]
  omega

theorem selects_wordXS (f : BitVec 4) (x : Reg) (sub : Byte) (m : Word)
    (hm : m.toNat = f.toNat * 4096 + sub.toNat) : selects (wordXK f x sub) (0xF0FF#16, m) = true := by
  rw [selects_F0FF, wordXK_toNat, hm]
  omega

theorem selects_wordXY (f : BitVec 4) (x y : Reg) (low : BitVec 4) (m : Word)
    (hm : m.toNat = f.toNat * 4096) : selects (wordXY f x y low) (0xF000#16, m) = true := by
  rw [selects_F000, wordXY_toNat, hm]
  omega

theorem selects_wordXYSub (f : BitVec 4) (x y : Reg) (low : BitVec 4) (m : Word)
    (hm : m.toNat = f.toNat * 4096 + low.toNat) : selects (wordXY f x y low) (0xF00F#16, m) = true := by
  rw [selects_F00F, wordXY_toNat, hm]
  omega

/-! ### One lemma per constructor -/

theorem cls : Statement .cls := of_row rfl (selects_wordZ _ _ rfl)
theorem ret : Statement .ret := of_row rfl (selects_wordZ _ _ rfl)
theorem jmp (nnn : Word) : Statement (.jmp nnn) := of_row rfl (selects_wordA _ _ _ rfl)
theorem call (nnn : Word) : Statement (.call nnn) := of_row rfl (selects_wordA _ _ _ rfl)
theorem seVxKk (x : Reg) (kk : Byte) : Statement (.seVxKk x kk) := of_row rfl (selects_wordXK _ _ _ _ rfl)
theorem sneVxKk (x : Reg) (kk : Byte) : Statement (.sneVxKk x kk) := of_row rfl (selects_wordXK _ _ _ _ rfl)
theorem seVxVy (x y : Reg) : Statement (.seVxVy x y) := of_row rfl (selects_wordXY _ _ _ _ _ rfl)
theorem ldVxKk (x : Reg) (kk : Byte) : Statement (.ldVxKk x kk) := of_row rfl (selects_wordXK _ _ _ _ rfl)
theorem addVxKk (x : Reg) (kk : Byte) : Statement (.addVxKk x kk) := of_row rfl (selects_wordXK _ _ _ _ rfl)
theorem ldVxVy (x y : Reg) : Statement (.ldVxVy x y) := of_row rfl (selects_wordXYSub _ _ _ _ _ rfl)
theorem orVxVy (x y : Reg) : Statement (.orVxVy x y) := of_row rfl (selects_wordXYSub _ _ _ _ _ rfl)
theorem andVxVy (x y : Reg) : Statement (.andVxVy x y) := of_row rfl (selects_wordXYSub _ _ _ _ _ rfl)
theorem xorVxVy (x y : Reg) : Statement (.xorVxVy x y) := of_row rfl (selects_wordXYSub _ _ _ _ _ rfl)
theorem addVxVy (x y : Reg) : Statement (.addVxVy x y) := of_row rfl (selects_wordXYSub _ _ _ _ _ rfl)
theorem subVxVy (x y : Reg) : Statement (.subVxVy x y) := of_row rfl (selects_wordXYSub _ _ _ _ _ rfl)
theorem shrVx (x y : Reg) : Statement (.shrVx x y) := of_row rfl (selects_wordXYSub _ _ _ _ _ rfl)
theorem subnVxVy (x y : Reg) : Statement (.subnVxVy x y) := of_row rfl (selects_wordXYSub _ _ _ _ _ rfl)
theorem shlVx (x y : Reg) : Statement (.shlVx x y) := of_row rfl (selects_wordXYSub _ _ _ _ _ rfl)
theorem sneVxVy (x y : Reg) : Statement (.sneVxVy x y) := of_row rfl (selects_wordXY _ _ _ _ _ rfl)
theorem ldI (nnn : Word) : Statement (.ldI nnn) := of_row rfl (selects_wordA _ _ _ rfl)
theorem jmpV0 (nnn : Word) : Statement (.jmpV0 nnn) := of_row rfl (selects_wordA _ _ _ rfl)
theorem rndVxKk (x : Reg) (kk : Byte) : Statement (.rndVxKk x kk) := of_row rfl (selects_wordXK _ _ _ _ rfl)
theorem drw (x y : Reg) (n : Nat) : Statement (.drw x y n) := of_row rfl (selects_wordXY _ _ _ _ _ rfl)
theorem skpVx (x : Reg) : Statement (.skpVx x) := of_row rfl (selects_wordXS _ _ _ _ rfl)
theorem sknpVx (x : Reg) : Statement (.sknpVx x) := of_row rfl (selects_wordXS _ _ _ _ rfl)
theorem ldVxDt (x : Reg) : Statement (.ldVxDt x) := of_row rfl (selects_wordXS _ _ _ _ rfl)
theorem ldVxK (x : Reg) : Statement (.ldVxK x) := of_row rfl (selects_wordXS _ _ _ _ rfl)
theorem ldDtVx (x : Reg) : Statement (.ldDtVx x) := of_row rfl (selects_wordXS _ _ _ _ rfl)
theorem ldStVx (x : Reg) : Statement (.ldStVx x) := of_row rfl (selects_wordXS _ _ _ _ rfl)
theorem addIVx (x : Reg) : Statement (.addIVx x) := of_row rfl (selects_wordXS _ _ _ _ rfl)
theorem ldFVx (x : Reg) : Statement (.ldFVx x) := of_row rfl (selects_wordXS _ _ _ _ rfl)
theorem ldBVx (x : Reg) : Statement (.ldBVx x) := of_row rfl (selects_wordXS _ _ _ _ rfl)
theorem ldMemVx (x : Reg) : Statement (.ldMemVx x) := of_row rfl (selects_wordXS _ _ _ _ rfl)
theorem ldVxMem (x : Reg) : Statement (.ldVxMem x) := of_row rfl (selects_wordXS _ _ _ _ rfl)
theorem unknown : Statement .unknown := fun _ h => nomatch h

end Sys2Proof.Laws.CanonicalWord
end

