-- ==== Sys2Proof/Laws/Step.lean ====
section
/-! SUPPORT. What one step can do, said once. -/

namespace Sys2Proof.Machine

/-- A step of a core that has not faulted fetches and runs, when PC leaves room for two bytes. -/
theorem step_runs {s : State} (hf : s.fault = .none) (hpc : s.pc.toNat ≤ 0xFFE) :
    step s = exec (decode (s.readByte s.pc.toNat) (s.readByte (s.pc.toNat + 1))) s := by
  simp only [step, hf, State.fetch_ok hpc]

/-- A step whose fetch is out of bounds takes the fault. -/
theorem step_fetchFault {s : State} (hf : s.fault = .none) (hpc : 0xFFE < s.pc.toNat) :
    step s = .next { s with fault := .memoryBounds } := by
  simp only [step, hf, State.fetch_bounds hpc, State.raise]

/-- A step of a halted core. -/
theorem step_halted {s : State} (hf : s.fault ≠ .none) : step s = .fault (.halted s.fault) := by
  unfold step
  split
  · exact absurd ‹_› hf
  · rfl

/-- Everything a step can do. -/
theorem step_cases (s : State) :
    (s.fault = .none ∧ s.pc.toNat ≤ 0xFFE ∧
      step s = exec (decode (s.readByte s.pc.toNat) (s.readByte (s.pc.toNat + 1))) s) ∨
    (s.fault = .none ∧ 0xFFE < s.pc.toNat ∧ step s = .next { s with fault := .memoryBounds }) ∨
    (s.fault ≠ .none ∧ step s = .fault (.halted s.fault)) := by
  by_cases hf : s.fault = .none
  · by_cases hpc : s.pc.toNat ≤ 0xFFE
    · exact .inl ⟨hf, hpc, step_runs hf hpc⟩
    · exact .inr (.inl ⟨hf, by omega, step_fetchFault hf (by omega)⟩)
  · exact .inr (.inr ⟨hf, step_halted hf⟩)

/-- If a step answers a next state, the latch was clear before it. -/
theorem fault_none_of_step {s t : State} (h : step s = .next t) : s.fault = .none := by
  rcases step_cases s with ⟨hf, _⟩ | ⟨hf, _⟩ | ⟨_, hs⟩
  · exact hf
  · exact hf
  · rw [hs] at h; exact absurd h (by simp)

end Sys2Proof.Machine
end

