-- ==== Sys2Proof/Tests/Slice0.lean ====
section
/-! SUPPORT. The model's own tests, every expected value taken from the spec's vectors
(95_test_vectors.md) or written out from an encoding (30_encoding.md), and one witness for each statement
that has hypotheses. -/

namespace Sys2Proof.Tests

open Sys2Proof Sys2Proof.Machine

/-! ### Helpers -/

/-- The reset state with a word placed at 0x200. -/
def at200 (op : Nat) : State := State.reset.withFetchWord 16 op

/-- With a register set. -/
def vset (r : Reg) (b : Byte) (s : State) : State := s.writeV r b

/-- The state one step leaves; a step that answers no state is told apart by `stops`. -/
def after (s : State) : State :=
  match step s with
  | .next t => t
  | .fault _ => s
  | .refused _ => s

/-- A step answers no next state. -/
def stops (s : State) : Bool :=
  match step s with
  | .next _ => false
  | .fault _ => true
  | .refused _ => true

/-- A register, PC and the latch after one step. -/
def vpf (s : State) (r : Reg) : Byte × Word × FaultCode := ((after s).readV r, (after s).pc, (after s).fault)

/-- The key map with every key pressed. -/
def allKeys : Vector Bool 16 := Vector.replicate 16 true

/-- A state whose stack holds 0x0345 in every slot, `n` of them valid. -/
def stacked (op : Nat) (n : Fin 17) : State :=
  { at200 op with sp := n, stack := Vector.replicate 16 0x0345 }

/-! ### WellFormed refuses what no encoding holds (30_encoding.md R62) -/

theorem test_wf_jmp : (Instr.jmp 0x1000).wf = false ∧ (Instr.jmp 0x0FFF).wf = true := by decide
theorem test_wf_call : (Instr.call 0x1000).wf = false ∧ (Instr.call 0x0FFF).wf = true := by decide
theorem test_wf_ldI : (Instr.ldI 0xFFFF).wf = false ∧ (Instr.ldI 0x0FFF).wf = true := by decide
theorem test_wf_jmpV0 : (Instr.jmpV0 0x1000).wf = false ∧ (Instr.jmpV0 0x0FFF).wf = true := by decide
theorem test_wf_drw : (Instr.drw 0 1 16).wf = false ∧ (Instr.drw 0 1 15).wf = true := by decide

/-! ### Decoding: every constructor by a word written out from its encoding (R61, R65 to R73) -/

theorem test_decode_cls : decode 0b00000000 0b11100000 = .cls := by decide
theorem test_decode_ret : decode 0b00000101 0b11101110 = .ret := by decide
theorem test_decode_jmp : decode 0b00010010 0b00110100 = .jmp 0x234 := by decide
theorem test_decode_call : decode 0b00101111 0b11111111 = .call 0xFFF := by decide
theorem test_decode_seVxKk : decode 0b00111010 0b00000000 = .seVxKk 10 0x00 := by decide
theorem test_decode_sneVxKk : decode 0b01000001 0b00100010 = .sneVxKk 1 0x22 := by decide
theorem test_decode_seVxVy : decode 0b01010001 0b00100001 = .seVxVy 1 2 := by decide
theorem test_decode_ldVxKk : decode 0b01101010 0b00000111 = .ldVxKk 10 0x07 := by decide
theorem test_decode_addVxKk : decode 0b01110001 0b00000010 = .addVxKk 1 0x02 := by decide
theorem test_decode_ldVxVy : decode 0b10001110 0b11110000 = .ldVxVy 14 15 := by decide
theorem test_decode_orVxVy : decode 0b10000001 0b00100001 = .orVxVy 1 2 := by decide
theorem test_decode_andVxVy : decode 0b10000001 0b00100010 = .andVxVy 1 2 := by decide
theorem test_decode_xorVxVy : decode 0b10000001 0b00100011 = .xorVxVy 1 2 := by decide
theorem test_decode_addVxVy : decode 0b10000000 0b00010100 = .addVxVy 0 1 := by decide
theorem test_decode_subVxVy : decode 0b10000000 0b00010101 = .subVxVy 0 1 := by decide
theorem test_decode_shrVx : decode 0b10001010 0b10110110 = .shrVx 10 11 := by decide
theorem test_decode_subnVxVy : decode 0b10000000 0b00010111 = .subnVxVy 0 1 := by decide
theorem test_decode_shlVx : decode 0b10001010 0b10111110 = .shlVx 10 11 := by decide
theorem test_decode_sneVxVy : decode 0b10011010 0b10111111 = .sneVxVy 10 11 := by decide
theorem test_decode_ldI : decode 0b10100000 0b00000101 = .ldI 0x005 := by decide
theorem test_decode_jmpV0 : decode 0b10110011 0b00000000 = .jmpV0 0x300 := by decide
theorem test_decode_rndVxKk : decode 0b11000101 0b00001111 = .rndVxKk 5 0x0F := by decide
theorem test_decode_drw : decode 0b11010000 0b00011111 = .drw 0 1 15 := by decide
theorem test_decode_skpVx : decode 0b11101111 0b10011110 = .skpVx 15 := by decide
theorem test_decode_sknpVx : decode 0b11100001 0b10100001 = .sknpVx 1 := by decide
theorem test_decode_ldVxDt : decode 0b11110010 0b00000111 = .ldVxDt 2 := by decide
theorem test_decode_ldVxK : decode 0b11110010 0b00001010 = .ldVxK 2 := by decide
theorem test_decode_ldDtVx : decode 0b11110010 0b00010101 = .ldDtVx 2 := by decide
theorem test_decode_ldStVx : decode 0b11110010 0b00011000 = .ldStVx 2 := by decide
theorem test_decode_addIVx : decode 0b11110000 0b00011110 = .addIVx 0 := by decide
theorem test_decode_ldFVx : decode 0b11110010 0b00101001 = .ldFVx 2 := by decide
theorem test_decode_ldBVx : decode 0b11110000 0b00110011 = .ldBVx 0 := by decide
theorem test_decode_ldMemVx : decode 0b11111111 0b01010101 = .ldMemVx 15 := by decide
theorem test_decode_ldVxMem : decode 0b11110001 0b01100101 = .ldVxMem 1 := by decide

/-- Vectors 2.1 and R70: the UNKNOWN words. -/
theorem test_decode_unknown :
    [0x00E1, 0x0000, 0x0123, 0x8018, 0x812F, 0x8009, 0xE19F, 0xE1A0, 0xE000, 0xF000, 0xF1FF, 0xF11F].all
      (fun op => decodeWord (BitVec.ofNat 16 op) == .unknown) = true := by decide

/-- Vectors 2.1, column "rendered" (R74 to R78). -/
theorem test_render :
    ([0x2FFF, 0x3A00, 0x5121, 0x9ABF, 0x8EF0, 0x8ABE, 0xA000, 0xD01F, 0xEF9E, 0xFF55].map
      fun op => render (decodeWord (BitVec.ofNat 16 op))) =
    ["call fff", "se v10, 00", "se v1, v2", "sne v10, v11", "ld v14, v15", "shl v10", "ld i, 00",
     "drw v0, v1, 0f", "skp v15", "ld [i], v15"] := by decide

/-! ### Control transfer (vectors 2.2) -/

theorem test_jmp_odd : vpf (at200 0x1201) 0 = (0, 0x0201, .none) := by decide
theorem test_jmpV0 : vpf (vset 0 0xFF (at200 0xBFFF)) 0 = (0xFF, 0x10FE, .none) := by decide
theorem test_call : (after (at200 0x2ABC)).stack[0] = 0x0202 ∧ (after (at200 0x2ABC)).sp = 1 ∧
    (after (at200 0x2ABC)).pc = 0x0ABC := by decide
theorem test_call_full : after (stacked 0x2ABC 16) = { stacked 0x2ABC 16 with fault := .stackOverflow } := by
  decide
theorem test_ret : (after (stacked 0x00EE 2)).pc = 0x0345 ∧ (after (stacked 0x00EE 2)).sp = 1 := by decide
theorem test_ret_empty : after (stacked 0x00EE 0) = { stacked 0x00EE 0 with fault := .stackUnderflow } := by
  decide
theorem test_seVxKk : (after (vset 1 0x22 (at200 0x3122))).pc = 0x0204 ∧
    (after (vset 1 0x23 (at200 0x3122))).pc = 0x0202 := by decide
theorem test_sneVxKk : (after (vset 1 0x22 (at200 0x4122))).pc = 0x0202 ∧
    (after (vset 1 0x23 (at200 0x4122))).pc = 0x0204 := by decide
theorem test_seVxVy : (after (vset 1 0x10 (vset 2 0x10 (at200 0x5120)))).pc = 0x0204 ∧
    (after (vset 1 0x10 (at200 0x5120))).pc = 0x0202 := by decide
theorem test_sneVxVy : (after (vset 1 0x10 (vset 2 0x10 (at200 0x9120)))).pc = 0x0202 ∧
    (after (vset 1 0x10 (vset 2 0x11 (at200 0x9120)))).pc = 0x0204 := by decide
theorem test_skpVx : (after { vset 1 0x0F (at200 0xE19E) with keys := allKeys }).pc = 0x0204 ∧
    (after (vset 1 0x0F (at200 0xE19E))).pc = 0x0202 := by decide
theorem test_skpVx_absent : (after { vset 1 0x1F (at200 0xE19E) with keys := allKeys }).pc = 0x0202 := by
  decide
theorem test_sknpVx : (after { at200 0xE1A1 with keys := allKeys }).pc = 0x0202 ∧
    (after (at200 0xE1A1)).pc = 0x0204 := by decide
theorem test_sknpVx_absent : (after { vset 1 0xFF (at200 0xE1A1) with keys := allKeys }).pc = 0x0204 := by
  decide

/-! ### ALU (vectors 2.3) -/

theorem test_ldVxKk : vpf (at200 0x6FAB) 15 = (0xAB, 0x0202, .none) := by decide
theorem test_addVxKk : vpf (vset 1 0xFF (vset 15 0x55 (at200 0x7102))) 1 = (0x01, 0x0202, .none) ∧
    (after (vset 1 0xFF (vset 15 0x55 (at200 0x7102)))).readV 15 = 0x55 := by decide
theorem test_ldVxVy : vpf (vset 2 0x33 (at200 0x8120)) 1 = (0x33, 0x0202, .none) := by decide
theorem test_orVxVy : (after (vset 1 0xF0 (vset 2 0x0F (vset 15 0x01 (at200 0x8121))))).readV 1 = 0xFF ∧
    (after (vset 1 0xF0 (vset 2 0x0F (vset 15 0x01 (at200 0x8121))))).readV 15 = 0x01 := by decide
theorem test_andVxVy : vpf (vset 1 0xF0 (vset 2 0x3C (at200 0x8122))) 1 = (0x30, 0x0202, .none) := by decide
theorem test_xorVxVy : vpf (vset 1 0xF0 (vset 2 0x3C (at200 0x8123))) 1 = (0xCC, 0x0202, .none) := by decide
theorem test_addVxVy : (after (vset 0 0xFF (vset 1 0x01 (at200 0x8014)))).readV 0 = 0x00 ∧
    (after (vset 0 0xFF (vset 1 0x01 (at200 0x8014)))).readV 15 = 0x01 := by decide
theorem test_addVxVy_vf : vpf (vset 15 0x80 (at200 0x8FF4)) 15 = (0x01, 0x0202, .none) := by decide
theorem test_subVxVy : (after (vset 0 0x03 (vset 1 0x05 (at200 0x8015)))).readV 0 = 0xFE ∧
    (after (vset 0 0x03 (vset 1 0x05 (at200 0x8015)))).readV 15 = 0x00 ∧
    (after (vset 0 0x05 (vset 1 0x05 (at200 0x8015)))).readV 15 = 0x01 := by decide
theorem test_subVxVy_vf : vpf (vset 15 0x05 (vset 0 0x03 (at200 0x8F05))) 15 = (0x01, 0x0202, .none) := by
  decide
theorem test_subnVxVy : (after (vset 0 0x03 (vset 1 0x05 (at200 0x8017)))).readV 0 = 0x02 ∧
    (after (vset 0 0x03 (vset 1 0x05 (at200 0x8017)))).readV 15 = 0x01 ∧
    (after (vset 0 0x05 (vset 1 0x03 (at200 0x8017)))).readV 15 = 0x00 := by decide
theorem test_shrVx : (after (vset 1 0x05 (vset 2 0xFF (at200 0x8126)))).readV 1 = 0x02 ∧
    (after (vset 1 0x05 (vset 2 0xFF (at200 0x8126)))).readV 15 = 0x01 ∧
    (after (vset 1 0x05 (vset 2 0xFF (at200 0x8126)))).readV 2 = 0xFF := by decide
theorem test_shrVx_vf : vpf (vset 15 0x03 (at200 0x8F06)) 15 = (0x00, 0x0202, .none) := by decide
theorem test_shlVx : (after (vset 1 0x81 (at200 0x810E))).readV 1 = 0x02 ∧
    (after (vset 1 0x81 (at200 0x810E))).readV 15 = 0x01 ∧
    (after (vset 1 0x80 (at200 0x810E))).readV 15 = 0x00 := by decide
theorem test_shlVx_vf : vpf (vset 15 0x03 (at200 0x8F0E)) 15 = (0x02, 0x0202, .none) := by decide
/-- R130's other configuration: `SHL_FLAG_BIT = 7`. -/
theorem test_shiftLeft_bit7 : (shiftLeft .bit7 1 (vset 1 0x80 State.reset)).readV 15 = 0x01 ∧
    (shiftLeft .bit7 1 (vset 1 0x01 State.reset)).readV 15 = 0x00 ∧
    (shiftLeft .bit7 15 (vset 15 0x80 State.reset)).readV 15 = 0x02 := by decide
/-- The draw is free; with a draw of 0xA7 the vector's result follows. -/
theorem test_rndVxKk (draw : Config.rndByte 0 = 0xA7) : (after (at200 0xC50F)).readV 5 = 0x07 := by
  have h : (after (at200 0xC50F)).readV 5 = Config.rndByte 0 &&& 0x0F := rfl
  rw [h, draw]
  decide

/-! ### Index, timers, memory (vectors 2.4) -/

theorem test_ldI : (after (at200 0xAFFF)).i = 0x0FFF ∧ (after (at200 0xAFFF)).pc = 0x0202 := by decide
theorem test_addIVx : (after (vset 0 0x01 { at200 0xF01E with i := 0x0FFF })).i = 0x1000 ∧
    (after (vset 0 0x01 { at200 0xF01E with i := 0x0FFF })).readV 15 = 0x00 := by decide
theorem test_addIVx_wraps : (after (vset 0 0x02 { at200 0xF01E with i := 0xFFFF })).i = 0x0001 := by decide
theorem test_ldVxDt : vpf { at200 0xF207 with dt := 0x3C } 2 = (0x3C, 0x0202, .none) := by decide
theorem test_ldDtVx : (after (vset 2 0xFF (at200 0xF215))).dt = 0xFF := by decide
theorem test_ldStVx : (after (vset 2 0x05 (at200 0xF218))).st = 0x05 := by decide
theorem test_ldBVx : (after (vset 0 0x64 { at200 0xF033 with i := 0x0FFD })).mem.readBytes 0xFFC 4 =
    [0, 1, 0, 0] := by decide
theorem test_ldBVx_bounds : after (vset 0 0x64 { at200 0xF033 with i := 0x0FFE }) =
    { vset 0 0x64 { at200 0xF033 with i := 0x0FFE } with fault := .memoryBounds } := by decide
theorem test_ldMemVx : (after (vset 0 0xAA (vset 1 0xBB { at200 0xF155 with i := 0x0FFE }))).mem.readBytes 0xFFE 2 =
    [0xAA, 0xBB] := by decide
theorem test_ldMemVx_bounds : (after (vset 0 1 { at200 0xF255 with i := 0x0FFE })).fault = .memoryBounds ∧
    (after (vset 0 1 { at200 0xF255 with i := 0x0FFE })).mem.readBytes 0xFFE 2 = [0, 0] := by decide
theorem test_ldVxMem : (after (vset 2 0x77 { at200 0xF165 with
    i := 0x0400, mem := (at200 0xF165).mem.writeBytes 0x400 [9, 8, 7] })).v.toList.take 3 = [9, 8, 0x77] := by decide
theorem test_ldVxMem_bounds : vpf { at200 0xF065 with i := 0x1000 } 0 = (0, 0x0200, .memoryBounds) := by decide

/-! ### Placeholders and UNKNOWN (vectors 2.5) -/

theorem test_cls : after (at200 0x00E0) = { at200 0x00E0 with pc := 0x0202, extReq := [.clearScreen] } := by
  decide
theorem test_drw : after (vset 15 1 (at200 0xD125)) =
    { vset 15 1 (at200 0xD125) with pc := 0x0202, extReq := [.drawSprite 1 2 5] } := by decide
theorem test_ldVxK : after (vset 2 9 (at200 0xF20A)) =
    { vset 2 9 (at200 0xF20A) with pc := 0x0202, extReq := [.waitKey 2] } := by decide
theorem test_ldFVx : after (vset 2 10 { at200 0xF229 with i := 0x123 }) =
    { vset 2 10 { at200 0xF229 with i := 0x123 } with pc := 0x0202, extReq := [.digitAddress 2] } := by
  decide
theorem test_unknown : after (at200 0x8018) = { at200 0x8018 with pc := 0x0202 } := by decide

/-! ### Faults, halting and host operations (vectors 2.6) -/

theorem test_fetch_bounds : after { State.reset with pc := 0x0FFF } =
    { State.reset with pc := 0x0FFF, fault := .memoryBounds } := by decide
theorem test_halted : stops { at200 0x6A07 with fault := .stackUnderflow } = true ∧
    drive { at200 0x6A07 with fault := .stackUnderflow } .step =
      ({ at200 0x6A07 with fault := .stackUnderflow }, .halted) := by decide
theorem test_step_answers : (drive (at200 0x6A07) .step).2 = .ok ∧
    (drive (at200 0x00EE) .step).2 = .fault .stackUnderflow := by decide
theorem test_halted_host : driveAll { State.reset with fault := .memoryBounds } [.keySet 3 true, .dtSet 9] =
    { State.reset with fault := .memoryBounds, dt := 9, keys := (Vector.replicate 16 false).set 3 true } := by
  decide
theorem test_reset_clears : (drive { at200 0x6A07 with fault := .stackOverflow } .reset).1 = State.reset := by
  decide
theorem test_load : (drive State.reset (.load 0xFFE [1, 2])).1.mem.readBytes 0xFFE 2 = [1, 2] ∧
    drive State.reset (.load 0xFFE [1, 2, 3]) = (State.reset, .failed .loadOverflow) ∧
    drive State.reset (.load 0x1000 []) = (State.reset, .done) := by decide
/-- Vector S12. -/
theorem test_disasm : (drive (driveAll State.reset [.load 0x200 [0x6A, 0x07, 0x12, 0x00]]) (.disasm 0x200 0x204)).2 =
    .variants [.ldVxKk 10 0x07, .jmp 0x200] := by decide
theorem test_disasm_odd : (drive (driveAll State.reset [.load 0x200 [0x6A, 0x07, 0x12, 0x00]]) (.disasm 0x201 0x203)).2 =
      .variants [.unknown] ∧
    (drive State.reset (.disasm 0x200 0x203)).2 = .failed .rangeError ∧
    (drive State.reset (.disasm 0xFFE 0x1002)).2 = .failed .rangeError ∧
    (drive State.reset (.disasm 0x300 0x300)).2 = .variants [] := by decide
theorem test_keySet : drive State.reset (.keySet 16 true) = (State.reset, .failed .keyRange) := by decide

/-! ### Memory stays canonical: writing 0x00 removes the entry (log 6) -/

theorem test_memory_canonical : Memory.write [(1, 5#8), (3, 6#8)] 1 0#8 = [(3, 6#8)] ∧
    Memory.write [(1, 5#8), (3, 6#8)] 2 7#8 = [(1, 5#8), (2, 7#8), (3, 6#8)] := by decide

/-! ### Witnesses: for each statement with hypotheses, states and operands that meet them, clause by
clause, at the boundary values -/

/-- `exec` answers this next state. -/
def gives (i : Instr) (s : State) (t : State) : Bool :=
  match exec i s with
  | .next u => decide (u = t)
  | .fault _ => false
  | .refused _ => false

/-- The state an instruction leaves. -/
def result (i : Instr) (s : State) : State :=
  match exec i s with
  | .next u => u
  | .fault _ => s
  | .refused _ => s

theorem gives_iff (i : Instr) (s t : State) : gives i s t = true ↔ exec i s = .next t := by
  unfold gives
  cases exec i s <;> simp

theorem step_after {s : State} (h : stops s = false) : step s = .next (after s) := by
  unfold stops at h
  unfold after
  cases e : step s <;> simp_all

theorem witness_DecodingAnEncodedInstructionGivesItBack :
    (Instr.drw 15 15 15).wf = true ∧ (Instr.jmpV0 0xFFF).wf = true ∧ Instr.unknown.wf = true ∧
    decodeBytes (encode (.drw 15 15 15) ++ [0xAB]) = .ok (.drw 15 15 15, [0xAB]) := by decide

theorem witness_WordsSelectTheirRowOfTheOpcodeMap :
    (0xF0FF#16, 0x00E0#16) ∈ opcodeRows ∧ selects 0x0AE0 (0xF0FF#16, 0x00E0#16) = true ∧
    (decodeWord 0x0AE0).row = some (0xF0FF#16, 0x00E0#16) ∧
    (∀ row ∈ opcodeRows, selects 0x0000 row = false) ∧ decodeWord 0x0000 = .unknown := by
  refine ⟨by decide, by decide, by decide, by simp [opcodeRows, selects], by decide⟩

/-- One word for each disjunct. -/
theorem witness_UnknownWordsAreExactlyTheUnlistedSubOperations :
    decode (0x0#4 ++ 0xA#4) 0xE1 = .unknown ∧ decode (0x8#4 ++ 0x1#4) 0x2F = .unknown ∧
    decode (0xE#4 ++ 0x1#4) 0x9F = .unknown ∧ decode (0xF#4 ++ 0x1#4) 0x00 = .unknown ∧
    decode (0xF#4 ++ 0x1#4) 0x65 ≠ .unknown := by decide

theorem witness_ResetLeavesEveryFieldAtItsResetValue :
    (stacked 0 16).hostReset = State.reset ∧ 15 < 16 := by decide

theorem witness_JumpsSetPcToTheTarget : (0xFFF : Word).toNat ≤ 0xFFF ∧
    exec (.jmpV0 0xFFF) (vset 0 0xFF State.reset) = .next { vset 0 0xFF State.reset with pc := 0x10FE } ∧
    0xFFE < { vset 0 0xFF State.reset with pc := 0x10FE }.pc.toNat ∧ (vset 0 0xFF State.reset).fault = .none ∧
    exec (.jmp 0xFFF) State.reset = .next { State.reset with pc := 0xFFF } ∧
    0xFFE < { State.reset with pc := 0xFFF }.pc.toNat := by
  refine ⟨by decide, (gives_iff _ _ _).1 (by decide), by decide, by decide, (gives_iff _ _ _).1 (by decide),
    by decide⟩

/-- Room for the last entry; no room; the empty stack. -/
theorem witness_CallPushesTheReturnAddress :
    (stacked 0 15).sp.val < 16 ∧ (result (.call 0xABC) (stacked 0 15)).sp.val = 16 ∧
    (stacked 0 16).sp.val = 16 ∧ (result (.call 0xABC) (stacked 0 16)).fault = .stackOverflow ∧
    (stacked 0 0).sp.val < 16 ∧ (result (.call 0xABC) (stacked 0 0)).stack[0] = 0x0202 ∧
    exec (.call 0xABC) (stacked 0 15) = .next (result (.call 0xABC) (stacked 0 15)) := by
  refine ⟨by decide, by decide, by decide, by decide, by decide, by decide, (gives_iff _ _ _).1 (by decide)⟩

/-- The last entry, the full stack, the empty stack. -/
theorem witness_ReturnPopsIntoPc :
    0 < (stacked 0 1).sp.val ∧ (result .ret (stacked 0 1)).pc = 0x0345 ∧
    0 < (stacked 0 16).sp.val ∧ (result .ret (stacked 0 16)).sp = 15 ∧
    (stacked 0 0).sp.val = 0 ∧ (result .ret (stacked 0 0)).fault = .stackUnderflow := by decide

theorem witness_ReturnComesBackBehindTheCall :
    (stacked 0 15).sp.val < 16 ∧
    exec (.call 0x20C) (stacked 0 15) = .next (result (.call 0x20C) (stacked 0 15)) ∧
    (result .ret (result (.call 0x20C) (stacked 0 15))).pc = 0x0202 := by
  refine ⟨by decide, (gives_iff _ _ _).1 (by decide), by decide⟩

/-- Key 15 is the last, key 16 is absent. -/
theorem witness_KeySkipsReadTheKeyMap :
    ((vset 1 0x0F State.reset).readV 1).toNat ≤ 15 ∧ 16 ≤ ((vset 1 0x10 State.reset).readV 1).toNat ∧
    (result (.skpVx 1) { vset 1 0x0F State.reset with keys := allKeys }).pc = 0x0204 ∧
    (result (.skpVx 1) { vset 1 0x10 State.reset with keys := allKeys }).pc = 0x0202 ∧
    (result (.sknpVx 1) { vset 1 0x10 State.reset with keys := allKeys }).pc = 0x0204 := by decide

theorem witness_ShiftRightHalvesAndKeepsTheLowBit : (14 : Reg) ≠ Reg.vf ∧ (15 : Reg) = Reg.vf := by decide

theorem witness_ShiftLeftDoublesAndCopiesTheFlagBit :
    (14 : Reg) ≠ Reg.vf ∧ (15 : Reg) = Reg.vf ∧ shiftLeft .bit7 15 State.reset = State.reset := by decide

theorem witness_RandomAndMasksTheDrawnByte : (0x0F : Byte).getLsbD 4 = false := by decide

/-- I + 3 = 4096 and I + 3 = 4097. -/
theorem witness_DecimalStoreWritesThreeDigits :
    State.reset.mem.wf = true ∧ (0x0FFD : Word).toNat + 3 ≤ 4096 ∧ 4096 < (0x0FFE : Word).toNat + 3 ∧
    (result (.ldBVx 0) (vset 0 0xFF { State.reset with i := 0x0FFD })).mem.readBytes 0xFFD 3 = [2, 5, 5] ∧
    (result (.ldBVx 0) { State.reset with i := 0x0FFE }).fault = .memoryBounds := by decide

/-- I + x = 4095 and I + x = 4096. -/
theorem witness_RegisterStoreCopiesRegistersToMemory :
    State.reset.mem.wf = true ∧ (0x0FF0 : Word).toNat + (15 : Reg).val ≤ 4095 ∧
    4095 < (0x0FF1 : Word).toNat + (15 : Reg).val ∧
    (result (.ldMemVx 15) (vset 15 0x77 { State.reset with i := 0x0FF0 })).readByte 0xFFF = 0x77 ∧
    (result (.ldMemVx 15) { State.reset with i := 0x0FF1 }).fault = .memoryBounds := by decide

theorem witness_RegisterLoadCopiesMemoryToRegisters :
    (0x0FFF : Word).toNat + (0 : Reg).val ≤ 4095 ∧ 4095 < (0x1000 : Word).toNat + (0 : Reg).val ∧
    (result (.ldVxMem 0) { State.reset with i := 0x0FFF, mem := [(0xFFF, 9#8)] }).readV 0 = 9 ∧
    (result (.ldVxMem 0) { State.reset with i := 0x1000 }).fault = .memoryBounds := by decide

theorem witness_StoredRegistersLoadBack :
    State.reset.mem.wf = true ∧ (0x0FFF : Word).toNat + (0 : Reg).val ≤ 4095 ∧
    exec (.ldMemVx 0) (vset 0 7 { State.reset with i := 0x0FFF }) =
      .next (result (.ldMemVx 0) (vset 0 7 { State.reset with i := 0x0FFF })) ∧
    (result (.ldVxMem 0) { result (.ldMemVx 0) (vset 0 7 { State.reset with i := 0x0FFF }) with
      v := Vector.replicate 16 0 }).readV 0 = 7 := by
  refine ⟨rfl, by decide, (gives_iff _ _ _).1 (by decide), by decide⟩

/-- Each store with the fetch at its start, across its start (p = I - 1) and across its end (p = I + x),
and a store and a fetch at the top of memory. -/
theorem witness_FetchSeesEveryStore :
    let s := vset 0 5 (vset 1 7 { State.reset with i := 0x0300, mem := [(0x2FF, 1#8), (0x302, 2#8), (0x303, 3#8)] })
    let top := vset 1 7 { State.reset with i := 0x0FFE }
    let bytes (t : State) (p : Word) := { t with pc := p }.fetch.toOption
    s.mem.wf = true ∧ s.i.toNat + (1 : Reg).val ≤ 4095 ∧ s.i.toNat + 3 ≤ 4096 ∧ (0x0FFE : Word).toNat ≤ 0xFFE ∧
    exec (.ldMemVx 1) s = .next (result (.ldMemVx 1) s) ∧ exec (.ldBVx 0) s = .next (result (.ldBVx 0) s) ∧
    bytes (result (.ldMemVx 1) s) 0x2FF = some (1, 5) ∧ bytes (result (.ldMemVx 1) s) 0x300 = some (5, 7) ∧
    bytes (result (.ldMemVx 1) s) 0x301 = some (7, 2) ∧
    bytes (result (.ldBVx 0) s) 0x2FF = some (1, 0) ∧ bytes (result (.ldBVx 0) s) 0x302 = some (5, 3) ∧
    bytes (driveAll s [.load 0x300 [8, 9]]) 0x2FF = some (1, 8) ∧
    bytes (driveAll s [.load 0x300 [8, 9]]) 0x301 = some (9, 2) ∧
    top.mem.wf = true ∧ top.i.toNat + (1 : Reg).val ≤ 4095 ∧ bytes (result (.ldMemVx 1) top) 0xFFE = some (0, 7) := by
  refine ⟨by decide, by decide, by decide, by decide, (gives_iff _ _ _).1 (by decide),
    (gives_iff _ _ _).1 (by decide), by decide⟩

/-- A load that `State.load` accepts. -/
theorem witness_FetchSeesEveryStore_load : State.reset.load 0xFFE [8, 9] =
    .ok { State.reset with mem := [(0xFFE, 8#8), (0xFFF, 9#8)] } := rfl

/-- The last legal byte, nothing at 4096, one byte at 4096; the same for a write. -/
theorem witness_AccessesAreBoundsCheckedAsAWhole :
    (0x0FFF : Word).toNat + 1 ≤ 4096 ∧ (0x1000 : Word).toNat + 0 ≤ 4096 ∧ 4096 < (0x1000 : Word).toNat + 1 ∧
    State.reset.mem.wf = true ∧ (0x0FFE : Word).toNat + [1#8, 2#8].length ≤ 4096 ∧
    4096 < (0x0FFE : Word).toNat + [1#8, 2#8, 3#8].length := by decide

theorem witness_CanonicalMemoriesThatReadAlikeAreEqual :
    Memory.wf [(4095, 1#8)] = true ∧ Memory.wf [(4096, 1#8)] = false ∧ Memory.wf [(3, 0#8)] = false ∧
    (∀ a, Memory.read [(4095, 1#8)] a = Memory.read [(4095, 1#8)] a) := by
  refine ⟨rfl, rfl, rfl, fun _ => rfl⟩

theorem witness_UnknownOnlyAdvancesPc : ∀ row ∈ opcodeRows, selects 0x8018 row = false := by
  simp [opcodeRows, selects]

/-- PC at the last slot, PC above it, a set latch. -/
theorem witness_StepRunsTheDecodedInstruction :
    State.reset.fault = .none ∧ (0x0FFE : Word).toNat ≤ 0xFFE ∧ 0xFFE < (0x0FFF : Word).toNat ∧
    stops { State.reset with pc := 0x0FFE } = false ∧ stops { State.reset with pc := 0x0FFF } = false ∧
    { State.reset with fault := .memoryBounds }.fault ≠ .none := by decide

theorem witness_EveryInstructionGivesANextState :
    State.reset.fault = .none ∧ step State.reset = .next (after State.reset) := by
  refine ⟨rfl, step_after (by decide)⟩

theorem witness_EmptyMemoryWalksToTheTopAndFaults :
    1792 ≤ 1792 ∧ core.run 2 core.reset = .next { State.reset with pc := 0x0204 } := ⟨by decide, rfl⟩

/-- Two zero bytes in the last slot, beside other contents. -/
theorem witness_EmptyMemoryWalksToTheTopAndFaults_step :
    let s : State := { State.reset with pc := 0x0FFE, mem := [(0xFFD, 1#8)], i := 5 }
    s.fault = .none ∧ s.pc.toNat ≤ 0xFFE ∧ s.readByte s.pc.toNat = 0x00 ∧
    s.readByte (s.pc.toNat + 1) = 0x00 := by decide

/-- A step at the last slot, above it, and of an instruction that faults. -/
theorem witness_FaultsAreExactlyThoseOfTheTable :
    step { State.reset with pc := 0x0FFE } = .next (after { State.reset with pc := 0x0FFE }) ∧
    step { State.reset with pc := 0x0FFF } = .next (after { State.reset with pc := 0x0FFF }) ∧
    step (at200 0x00EE) = .next (after (at200 0x00EE)) ∧ (after (at200 0x00EE)).fault = .stackUnderflow := by
  refine ⟨step_after (by decide), step_after (by decide), step_after (by decide), by decide⟩

theorem witness_FaultsChangeNothingButTheLatch :
    step (stacked 0x2ABC 16) = .next (after (stacked 0x2ABC 16)) ∧
    (after (stacked 0x2ABC 16)).fault ≠ .none := by
  refine ⟨step_after (by decide), by decide⟩

theorem witness_AHaltedCoreStaysHaltedUntilReset :
    { State.reset with fault := .stackUnderflow }.fault ≠ .none ∧
    DriverCall.reset ∉ [.step, .load 0x200 [1], .keySet 3 true, .step] := by decide

/-- 0x6001 in the last slot. -/
theorem witness_FetchFaultsAboveTheLastSlot :
    let s : State := { State.reset with pc := 0x0FFE, mem := [(0xFFE, 0x60#8), (0xFFF, 0x01#8)] }
    s.fault = .none ∧ s.pc = 0xFFE ∧ Instr.ldVxKk 0 1 = decode (s.readByte 0xFFE) (s.readByte 0xFFF) ∧
    (Instr.ldVxKk 0 1).faultIn s = .none ∧ (Instr.ldVxKk 0 1).nextPc s = s.pc + 2 ∧
    { s with pc := 0x0FFF }.fault = .none ∧ 0xFFE < { s with pc := 0x0FFF }.pc.toNat := by decide

/-- One instruction that faults and one that does not. -/
theorem witness_PcFollowsTheSequencerTable :
    exec .ret (stacked 0 1) = .next (result .ret (stacked 0 1)) ∧ Instr.ret.faultIn (stacked 0 1) = .none ∧
    exec .ret (stacked 0 0) = .next (result .ret (stacked 0 0)) ∧ Instr.ret.faultIn (stacked 0 0) ≠ .none := by
  refine ⟨(gives_iff _ _ _).1 (by decide), by decide, (gives_iff _ _ _).1 (by decide), by decide⟩

/-- A skip taken in the last slot. -/
theorem witness_DefaultAndSkipUpdatesNeverWrap :
    let s : State := { State.reset with pc := 0x0FFE, mem := [(0xFFE, 0x30#8)] }
    step s = .next (after s) ∧ (after s).fault = .none ∧
    (decode (s.readByte s.pc.toNat) (s.readByte (s.pc.toNat + 1))).redirects = false ∧
    (after s).pc = 0x1002 := by
  refine ⟨step_after (by decide), by decide, by decide, by decide⟩

theorem witness_RegistersChangeOnlyWhereTheTableSays :
    exec (.ldVxMem 3) State.reset = .next (result (.ldVxMem 3) State.reset) ∧
    (Instr.ldVxMem 3).writesReg 4 = false ∧ (Instr.ldVxMem 3).writesReg 3 = true := by
  refine ⟨(gives_iff _ _ _).1 (by decide), by decide, by decide⟩

/-- The addresses next to the stored ones. -/
theorem witness_MemoryChangesOnlyWhereStored :
    let s : State := { State.reset with i := 0x0300 }
    exec (.ldBVx 0) s = .next (result (.ldBVx 0) s) ∧ 0x2FF < s.i.toNat ∧
    s.i.toNat + (Instr.ldBVx 0).storeLength ≤ 0x303 := by
  refine ⟨(gives_iff _ _ _).1 (by decide), by decide, by decide⟩

theorem witness_SpecialStateChangesOnlyByItsInstructions :
    exec .cls State.reset = .next (result .cls State.reset) ∧
    (∀ nnn, Instr.cls ≠ .ldI nnn) ∧ (∀ x, Instr.cls ≠ .addIVx x) ∧ (∀ nnn, Instr.cls ≠ .call nnn) ∧
    Instr.cls ≠ .ret ∧ (∀ x, Instr.cls ≠ .ldDtVx x) ∧ (∀ x, Instr.cls ≠ .ldStVx x) := by
  refine ⟨(gives_iff _ _ _).1 (by decide), nofun, nofun, nofun, nofun, nofun, nofun⟩

/-- Different dead slots, the same live one. -/
theorem witness_DeadStackSlotsAreNeverRead :
    let s := stacked 0x00EE 1
    let u : State := { s with stack := s.stack.set 1 0xFFFF }
    SameLive s u ∧ u ≠ s ∧ step s = .next (after s) := by
  refine ⟨⟨rfl, by decide⟩, by decide, step_after (by decide)⟩

theorem witness_RequestsAreOutputOnly : step (at200 0x00E0) = .next (after (at200 0x00E0)) :=
  step_after (by decide)

theorem witness_OnlyRndDependsOnTheDraw :
    step (at200 0x6A07) = .next (after (at200 0x6A07)) ∧
    ∀ x kk, decode ((at200 0x6A07).readByte (at200 0x6A07).pc.toNat)
      ((at200 0x6A07).readByte ((at200 0x6A07).pc.toNat + 1)) ≠ .rndVxKk x kk := by
  refine ⟨step_after (by decide), by decide⟩

/-- A call in a state with a valid entry and the highest PC a call can be fetched from. -/
theorem witness_EveryStepKeepsTheInvariant :
    let s : State := { State.reset with
      pc := 0x0FFE, mem := [(0xFFE, 0x2A#8), (0xFFF, 0xBC#8)], sp := 1,
      stack := Vector.replicate 16 0x0202 }
    s.Inv ∧ step s = .next (after s) ∧ (after s).stack[1] = 0x1000 := by
  refine ⟨⟨by decide, by decide, by decide⟩, step_after (by decide), by decide⟩

theorem witness_EveryDriverCallKeepsTheInvariant_call : State.reset.Inv :=
  ⟨by decide, by decide, by decide⟩

theorem witness_EveryDriverCallKeepsTheInvariant : Reachable (after (at200 0x2ABC)) :=
  ⟨[.load 0x200 [0x2A, 0xBC], .step], by decide⟩

theorem witness_LoadCopiesTheBufferOrFails :
    State.reset.mem.wf = true ∧ 0xFFE + [1#8, 2#8].length ≤ 4096 ∧ 0x1000 + ([] : List Byte).length ≤ 4096 ∧
    4096 < 0xFFE + [1#8, 2#8, 3#8].length := by decide

/-- The whole of memory, an empty range at its end; an odd length, an end too high, an end below the
start. -/
theorem witness_DisassemblyDecodesEverySlot :
    (0 ≤ 4096 ∧ 4096 ≤ 4096 ∧ (4096 - 0) % 2 = 0) ∧ (4096 ≤ 4096 ∧ 4096 ≤ 4096 ∧ (4096 - 4096) % 2 = 0) ∧
    ¬ (0x200 ≤ 0x203 ∧ 0x203 ≤ 4096 ∧ (0x203 - 0x200) % 2 = 0) ∧
    ¬ (0xFFE ≤ 0x1002 ∧ 0x1002 ≤ 4096 ∧ (0x1002 - 0xFFE) % 2 = 0) ∧
    ¬ (0x204 ≤ 0x200 ∧ 0x200 ≤ 4096 ∧ (0x200 - 0x204) % 2 = 0) := by decide

theorem witness_KeysAndTimersAreTheDriversToSet : (15 < 16) ∧ (16 ≤ 16) ∧
    (drive State.reset (.keySet 15 true)).1.keys[15] = true := by decide

theorem witness_HostOperationsLeaveTheCoreRegistersAlone :
    DriverCall.load 0x200 [1] ≠ .step ∧ DriverCall.load 0x200 [1] ≠ .reset := by decide

/-- A step of another instruction, in a state where ST is set. -/
theorem witness_NoInstructionReadsTheSoundTimer :
    let s : State := { at200 0xF207 with st := 9, dt := 3 }
    step s = .next (after s) ∧
    ∀ x, decode (s.readByte s.pc.toNat) (s.readByte (s.pc.toNat + 1)) ≠ .ldStVx x := by
  refine ⟨step_after (by decide), by decide⟩

end Sys2Proof.Tests
end

/-! Proofs of the family 10_state: reset values (R27), the frames of the general and special registers
(R11, R16 to R20), the program counter (R13) and the dead stack slots (R17). -/
section

namespace Sys2Proof.Machine

/-! ### What an instruction does, by whether the table of R170 gives it a fault -/

/-- An instruction that the table gives a fault sets the latch to it and does nothing else (R173). -/
theorem exec_of_faultIn_ne {i : Instr} {s : State} (hf : i.faultIn s ≠ .none) :
    exec i s = .next { s with fault := i.faultIn s } := by
  cases i with
  | call nnn =>
    rcases exec_call_cases s nnn with ⟨h, -⟩ | ⟨h, e⟩
    · exact absurd (if_neg (by omega)) hf
    · rw [e, Instr.faultIn, if_pos h]
  | ret =>
    rcases exec_ret_cases s with ⟨h, -⟩ | ⟨h, e⟩
    · exact absurd (if_neg (by omega)) hf
    · rw [e, Instr.faultIn, if_pos h]
  | ldBVx x =>
    rcases exec_ldBVx_cases s x with ⟨h, -⟩ | ⟨h, e⟩
    · exact absurd (if_neg (by omega)) hf
    · rw [e, Instr.faultIn, if_pos h]
  | ldMemVx x =>
    rcases exec_ldMemVx_cases s x with ⟨h, -⟩ | ⟨h, e⟩
    · exact absurd (if_neg (by omega)) hf
    · rw [e, Instr.faultIn, if_pos h]
  | ldVxMem x =>
    rcases exec_ldVxMem_cases s x with ⟨h, -⟩ | ⟨h, e⟩
    · exact absurd (if_neg (by omega)) hf
    · rw [e, Instr.faultIn, if_pos h]
  | _ => exact absurd rfl hf

theorem faultIn_eq_none_of_exec {i : Instr} {s t : State} (e : exec i s = .next t) (ht : t.fault = .none) :
    i.faultIn s = .none := by
  by_contra hf
  cases (exec_of_faultIn_ne hf).symm.trans e
  exact hf ht

section NoFault

variable {s : State}

theorem exec_call_of_faultIn_eq_none {nnn : Word} (hf : (Instr.call nnn).faultIn s = .none) :
    ∃ h : s.sp.val < 16, exec (.call nnn) s = .next { s with
      pc := nnn, stack := s.stack.set s.sp.val (returnAddress s) h, sp := ⟨s.sp.val + 1, by omega⟩ } := by
  rcases exec_call_cases s nnn with e | ⟨h, -⟩
  · exact e
  · rw [Instr.faultIn, if_pos h] at hf; cases hf

theorem exec_ret_of_faultIn_eq_none (hf : Instr.ret.faultIn s = .none) :
    ∃ _ : 0 < s.sp.val, exec .ret s = .next { s with
      pc := s.stack[s.sp.val - 1]'(by have := s.sp.isLt; omega),
      sp := ⟨s.sp.val - 1, by have := s.sp.isLt; omega⟩ } := by
  rcases exec_ret_cases s with e | ⟨h, -⟩
  · exact e
  · rw [Instr.faultIn, if_pos h] at hf; cases hf

theorem exec_ldBVx_of_faultIn_eq_none {x : Reg} (hf : (Instr.ldBVx x).faultIn s = .none) :
    exec (.ldBVx x) s = .next { s with
      mem := s.mem.writeBytes s.i.toNat (decimalDigits (s.readV x)), pc := s.pc + 2#16 } := by
  rcases exec_ldBVx_cases s x with ⟨-, e⟩ | ⟨h, -⟩
  · exact e
  · rw [Instr.faultIn, if_pos h] at hf; cases hf

theorem exec_ldMemVx_of_faultIn_eq_none {x : Reg} (hf : (Instr.ldMemVx x).faultIn s = .none) :
    exec (.ldMemVx x) s = .next { s with
      mem := s.mem.writeBytes s.i.toNat (regsUpTo s x), pc := s.pc + 2#16 } := by
  rcases exec_ldMemVx_cases s x with ⟨-, e⟩ | ⟨h, -⟩
  · exact e
  · rw [Instr.faultIn, if_pos h] at hf; cases hf

theorem exec_ldVxMem_of_faultIn_eq_none {x : Reg} (hf : (Instr.ldVxMem x).faultIn s = .none) :
    exec (.ldVxMem x) s = .next (s.loadRegs (s.mem.readBytes s.i.toNat (x.val + 1))).advance := by
  rcases exec_ldVxMem_cases s x with ⟨-, e⟩ | ⟨h, -⟩
  · exact e
  · rw [Instr.faultIn, if_pos h] at hf; cases hf

end NoFault

@[simp] theorem shiftLeft_eq (bit : Config.ShlFlagBit) (x : Reg) (s : State) :
    shiftLeft bit x s = s.flagThenShift x (shlFlag bit) (· <<< 1) := rfl

/-! ### The program counter (R13, R100) -/

/-- An instruction that does not fault leaves the PC of the sequencer table. -/
theorem pc_of_exec {i : Instr} {s t : State} (hf : i.faultIn s = .none) (e : exec i s = .next t) :
    t.pc = i.nextPc s := by
  cases i with
  | call nnn =>
    obtain ⟨_, e'⟩ := exec_call_of_faultIn_eq_none hf
    cases e'.symm.trans e
    rfl
  | ret =>
    obtain ⟨h, e'⟩ := exec_ret_of_faultIn_eq_none hf
    cases e'.symm.trans e
    rw [Instr.nextPc, dif_neg (by omega)]
  | ldBVx x => cases (exec_ldBVx_of_faultIn_eq_none hf).symm.trans e; rfl
  | ldMemVx x => cases (exec_ldMemVx_of_faultIn_eq_none hf).symm.trans e; rfl
  | ldVxMem x => cases (exec_ldVxMem_of_faultIn_eq_none hf).symm.trans e; rfl
  | sknpVx x => cases e; cases hk : keyPressed s (s.readV x) <;> simp [Instr.nextPc, hk]
  | _ => cases e; simp [Instr.nextPc, indexedTarget, zext16]

/-- Settles O40, by whether the instruction faults. -/
theorem pcFollowsTheSequencerTable : Obligations.PcFollowsTheSequencerTable := by
  intro i s t e
  split
  case isTrue hf => exact pc_of_exec hf e
  case isFalse hf =>
    cases (exec_of_faultIn_ne hf).symm.trans e
    rfl

theorem nextPc_of_not_redirects {i : Instr} (s : State) (h : i.redirects = false) :
    i.nextPc s = s.pc + 2 ∨ i.nextPc s = s.pc + 4 := by
  cases i with
  | jmp _ | jmpV0 _ | call _ | ret => cases h
  | seVxKk _ _ | sneVxKk _ _ | seVxVy _ _ | sneVxVy _ _ | skpVx _ =>
    rw [Instr.nextPc]; split
    · exact .inr rfl
    · exact .inl rfl
  | sknpVx _ =>
    rw [Instr.nextPc]; split
    · exact .inl rfl
    · exact .inr rfl
  | _ => exact .inl rfl

/-- Settles O41: a fetched instruction stands at 0xFFE at most, so neither update reaches 2^16. -/
theorem defaultAndSkipUpdatesNeverWrap : Obligations.DefaultAndSkipUpdatesNeverWrap := by
  intro s t e ht hr
  rcases step_cases s with ⟨-, hpc, e'⟩ | ⟨-, -, e'⟩ | ⟨-, e'⟩
  · rw [e'] at e
    have hn := pc_of_exec (faultIn_eq_none_of_exec e ht) e
    rcases nextPc_of_not_redirects s hr with h | h <;> rw [h] at hn <;> bv_omega
  · cases e'.symm.trans e
    cases ht
  · cases e'.symm.trans e

/-! ### Frames (R11, R16, R18 to R20) -/

/-- Settles O42, by the shape of the instruction's register writes. -/
theorem registersChangeOnlyWhereTheTableSays : Obligations.RegistersChangeOnlyWhereTheTableSays := by
  intro i s t r e hr
  by_cases hf : i.faultIn s = .none
  case neg => cases (exec_of_faultIn_ne hf).symm.trans e; rfl
  cases i with
  | call nnn =>
    obtain ⟨_, e'⟩ := exec_call_of_faultIn_eq_none hf
    cases e'.symm.trans e
    rfl
  | ret =>
    obtain ⟨_, e'⟩ := exec_ret_of_faultIn_eq_none hf
    cases e'.symm.trans e
    rfl
  | ldBVx x => cases (exec_ldBVx_of_faultIn_eq_none hf).symm.trans e; rfl
  | ldMemVx x => cases (exec_ldMemVx_of_faultIn_eq_none hf).symm.trans e; rfl
  | ldVxMem x =>
    cases (exec_ldVxMem_of_faultIn_eq_none hf).symm.trans e
    have hx : x.val < r.val := by simpa [Instr.writesReg] using hr
    rw [State.advance_eq, State.readV_jumpTo, State.readV_loadRegs]
    exact List.getD_eq_default _ _ (by rw [Memory.length_readBytes]; omega)
  | ldVxKk x _ | addVxKk x _ | ldVxVy x _ | orVxVy x _ | andVxVy x _ | xorVxVy x _ | rndVxKk x _
  | ldVxDt x =>
    cases e
    have hx : r ≠ x := by simpa [Instr.writesReg] using hr
    exact State.readV_writeV_ne s _ hx
  | addVxVy x _ | subVxVy x _ | subnVxVy x _ =>
    cases e
    have hx : r ≠ x ∧ r ≠ Reg.vf := by simpa [Instr.writesReg] using hr
    simp [State.readV_resultThenFlag, hx]
  | shrVx x _ | shlVx x _ =>
    cases e
    have hx : r ≠ x ∧ r ≠ Reg.vf := by simpa [Instr.writesReg] using hr
    simp [State.readV_flagThenShift, hx]
  | _ => cases e; rfl

/-- Settles O44: each exception is the one instruction whose update writes that field. -/
theorem specialStateChangesOnlyByItsInstructions :
    Obligations.SpecialStateChangesOnlyByItsInstructions := by
  intro i s t e
  by_cases hf : i.faultIn s = .none
  case neg => cases (exec_of_faultIn_ne hf).symm.trans e; simp
  cases i with
  | call nnn =>
    obtain ⟨_, e'⟩ := exec_call_of_faultIn_eq_none hf
    cases e'.symm.trans e
    simp
  | ret =>
    obtain ⟨_, e'⟩ := exec_ret_of_faultIn_eq_none hf
    cases e'.symm.trans e
    simp
  | ldBVx x => cases (exec_ldBVx_of_faultIn_eq_none hf).symm.trans e; simp
  | ldMemVx x => cases (exec_ldMemVx_of_faultIn_eq_none hf).symm.trans e; simp
  | ldVxMem x => cases (exec_ldVxMem_of_faultIn_eq_none hf).symm.trans e; simp
  | _ => cases e; simp

/-! ### Stack entries at and above SP (R17) -/

/-- Any stack that agrees below SP may replace the state's own. -/
theorem SameLive.of_stack {s : State} {st : Vector Word 16}
    (h : ∀ k (hk : k < 16), k < s.sp.val → st[k] = s.stack[k]) : SameLive s { s with stack := st } :=
  ⟨rfl, h⟩

/-- Every instruction but `call` and `ret` neither reads nor writes the stack: it does the same whatever
the stack holds. -/
theorem exec_withStack {i : Instr} {s t : State} (hc : ∀ nnn, i ≠ .call nnn) (hr : i ≠ .ret)
    (hf : i.faultIn s = .none) (e : exec i s = .next t) (st : Vector Word 16) :
    exec i { s with stack := st } = .next { t with stack := st } := by
  cases i with
  | call nnn => exact absurd rfl (hc nnn)
  | ret => exact absurd rfl hr
  | ldBVx x =>
    cases (exec_ldBVx_of_faultIn_eq_none hf).symm.trans e
    exact exec_ldBVx_of_faultIn_eq_none (s := { s with stack := st }) hf
  | ldMemVx x =>
    cases (exec_ldMemVx_of_faultIn_eq_none hf).symm.trans e
    exact exec_ldMemVx_of_faultIn_eq_none (s := { s with stack := st }) hf
  | ldVxMem x =>
    cases (exec_ldVxMem_of_faultIn_eq_none hf).symm.trans e
    exact exec_ldVxMem_of_faultIn_eq_none (s := { s with stack := st }) hf
  | _ => cases e; rfl

/-- A pushed entry is live and the same in both states. -/
theorem exec_call_sameLive {nnn : Word} {s t u : State} (h : SameLive s u)
    (hf : (Instr.call nnn).faultIn s = .none) (e : exec (.call nnn) s = .next t) :
    ∃ w, exec (.call nnn) u = .next w ∧ SameLive t w := by
  obtain ⟨hu, hlive⟩ := h
  obtain ⟨_, e'⟩ := exec_call_of_faultIn_eq_none hf
  cases e'.symm.trans e
  rw [hu]
  obtain ⟨_, eu⟩ := exec_call_of_faultIn_eq_none (s := { s with stack := u.stack }) hf
  refine ⟨_, eu, rfl, fun k hk hlt => ?_⟩
  have hlt' : k < s.sp.val + 1 := hlt
  by_cases hks : s.sp.val = k
  · simp [hks, returnAddress]
  · simp only [Vector.getElem_set_ne _ _ hks]
    exact hlive k hk (by omega)

/-- The popped entry lies below SP, where the two states agree. -/
theorem exec_ret_sameLive {s t u : State} (h : SameLive s u) (hf : Instr.ret.faultIn s = .none)
    (e : exec .ret s = .next t) : ∃ w, exec .ret u = .next w ∧ SameLive t w := by
  obtain ⟨hu, hlive⟩ := h
  obtain ⟨hsp, e'⟩ := exec_ret_of_faultIn_eq_none hf
  cases e'.symm.trans e
  rw [hu]
  obtain ⟨_, eu⟩ := exec_ret_of_faultIn_eq_none (s := { s with stack := u.stack }) hf
  have hpop := hlive (s.sp.val - 1) (by have := s.sp.isLt; omega) (by omega)
  refine ⟨_, eu, ?_, fun k hk hlt => hlive k hk (Nat.lt_of_lt_of_le hlt (Nat.sub_le ..))⟩
  simp only [hpop]

/-- Every instruction takes states that differ only in dead stack entries to such states. -/
theorem exec_sameLive {i : Instr} {s t u : State} (h : SameLive s u) (e : exec i s = .next t) :
    ∃ w, exec i u = .next w ∧ SameLive t w := by
  by_cases hf : i.faultIn s = .none
  · by_cases hc : ∃ nnn, i = .call nnn
    · obtain ⟨nnn, rfl⟩ := hc
      exact exec_call_sameLive h hf e
    by_cases hr : i = .ret
    · subst hr
      exact exec_ret_sameLive h hf e
    have hc' : ∀ nnn, i ≠ .call nnn := fun nnn hi => hc ⟨nnn, hi⟩
    obtain ⟨-, hframe, -⟩ := specialStateChangesOnlyByItsInstructions i s t e
    obtain ⟨hstack, hsp⟩ := hframe hc' hr
    obtain ⟨hu, hlive⟩ := h
    rw [hu]
    exact ⟨_, exec_withStack hc' hr hf e u.stack, .of_stack (by rwa [hstack, hsp])⟩
  · cases (exec_of_faultIn_ne hf).symm.trans e
    obtain ⟨hu, hlive⟩ := h
    rw [hu]
    exact ⟨_, exec_of_faultIn_ne hf, .of_stack hlive⟩

/-- Settles O45, by what the step does: it runs the same instruction, or takes the same fetch fault. -/
theorem deadStackSlotsAreNeverRead : Obligations.DeadStackSlotsAreNeverRead := by
  intro s t u h e
  rcases step_cases s with ⟨hf, hpc, e'⟩ | ⟨hf, hpc, e'⟩ | ⟨-, e'⟩
  · rw [e'] at e
    obtain ⟨w, hw, hlive⟩ := exec_sameLive h e
    obtain ⟨hu, -⟩ := h
    rw [hu] at hw ⊢
    exact ⟨w, (step_runs (s := { s with stack := u.stack }) hf hpc).trans hw, hlive⟩
  · cases e'.symm.trans e
    obtain ⟨hu, hlive⟩ := h
    rw [hu]
    exact ⟨_, step_fetchFault hf hpc, .of_stack hlive⟩
  · cases e'.symm.trans e

/-! ### Reset (R27, R200, R201) -/

/-- Settles O7: a reset state is `State.reset` but for the model's own draw counter and event record. -/
theorem resetLeavesEveryFieldAtItsResetValue : Obligations.ResetLeavesEveryFieldAtItsResetValue := by
  refine ⟨fun s => ⟨rfl, rfl⟩, fun s t ht => ?_⟩
  have hreset : t = { State.reset with draws := t.draws, extReq := t.extReq } := by
    rcases ht with rfl | rfl <;> rfl
  rw [hreset]
  exact ⟨fun r => Vector.getElem_replicate r.isLt, rfl, rfl, rfl, fun _ hk => Vector.getElem_replicate hk,
    fun _ => rfl, rfl, rfl, fun _ hk => Vector.getElem_replicate hk, rfl⟩

/-- Settles O48: reset memory is empty, PC is 0x200 and no stack entry is valid. -/
theorem invariantHoldsAtReset : Obligations.InvariantHoldsAtReset where
  memCanonical := State.reset_mem_wf
  pcBound := by decide
  returnAddresses _ _ hk := absurd hk (Nat.not_lt_zero _)

end Sys2Proof.Machine
end

/-! Proofs of the family 20_memory: bounded accesses (R42, R43), the canonical form of memory (R40), the
fetch (R44, R53), where instructions store (R47), and the invariant that every step and every driver call
keeps (R44, R100 to R104, R188). -/
section

namespace Sys2Proof.Machine

/-! ### Decoded operands fit their fields (R62) -/

theorem addressFits_iff (nnn : Word) : addressFits nnn = true ↔ nnn.toNat < 0x1000 := by
  simp [addressFits]

theorem addressFits_fieldNnn (op : Word) : addressFits (fieldNnn op) = true := by
  rw [addressFits_iff, fieldNnn_toNat]
  omega

theorem countFits_fieldN (op : Word) : countFits (fieldN op).toNat = true := by
  simpa [countFits] using (fieldN op).isLt

theorem decodeFamily0_wf (op : Word) : (decodeFamily0 op).wf = true := by
  rw [decodeFamily0]; split <;> rfl

theorem decodeFamily8_wf (op : Word) : (decodeFamily8 op).wf = true := by
  rw [decodeFamily8]; split <;> rfl

theorem decodeFamilyE_wf (op : Word) : (decodeFamilyE op).wf = true := by
  rw [decodeFamilyE]; split <;> rfl

theorem decodeFamilyF_wf (op : Word) : (decodeFamilyF op).wf = true := by
  rw [decodeFamilyF]; split <;> rfl

/-- The decoder's arms 2, 3, 11 and 12 (families 1, 2, A and B) carry an address, arm 14
(family D) a count. -/
theorem decodeWord_wf (op : Word) : (decodeWord op).wf = true := by
  rw [decodeWord]
  split
  case h_1 => exact decodeFamily0_wf op
  case h_2 | h_3 | h_11 | h_12 => exact addressFits_fieldNnn op
  case h_9 => exact decodeFamily8_wf op
  case h_14 => exact countFits_fieldN op
  case h_15 => exact decodeFamilyE_wf op
  case h_16 => exact decodeFamilyF_wf op
  all_goals rfl

/-! ### What an instruction that does not fault does to the latch -/

/-- An instruction that the table gives no fault runs and leaves the latch as it was. -/
theorem exec_next_of_faultIn_eq_none {i : Instr} {s : State} (hf : i.faultIn s = .none) :
    ∃ t, exec i s = .next t ∧ t.fault = s.fault := by
  cases i with
  | call nnn =>
    obtain ⟨_, e⟩ := exec_call_of_faultIn_eq_none hf
    exact ⟨_, e, rfl⟩
  | ret =>
    obtain ⟨_, e⟩ := exec_ret_of_faultIn_eq_none hf
    exact ⟨_, e, rfl⟩
  | ldBVx x => exact ⟨_, exec_ldBVx_of_faultIn_eq_none hf, rfl⟩
  | ldMemVx x => exact ⟨_, exec_ldMemVx_of_faultIn_eq_none hf, rfl⟩
  | ldVxMem x => exact ⟨_, exec_ldVxMem_of_faultIn_eq_none hf, rfl⟩
  | _ => exact ⟨_, rfl, rfl⟩

/-- Settles O39: from 0xFFE the default update leads to 0x1000, where the fetch is out of bounds. -/
theorem fetchFaultsAboveTheLastSlot : Obligations.FetchFaultsAboveTheLastSlot := by
  refine ⟨fun s hf hpc => step_fetchFault hf hpc, fun s i hf hpc hi hnf hnext => ?_⟩
  have hstep : step s = exec i s := by
    rw [hi, step_runs hf (by simp [hpc]), hpc]
    rfl
  obtain ⟨t, e, ht⟩ := exec_next_of_faultIn_eq_none hnf
  have htpc : t.pc = 0x1000 := by rw [pc_of_exec hnf e, hnext, hpc]; rfl
  have htf : t.fault = .none := ht.trans hf
  exact ⟨t, hstep.trans e, e, htf, htpc, step_fetchFault htf (by simp [htpc])⟩

/-! ### What an instruction can do to memory (R47) -/

/-- Everything an instruction can do to memory: nothing, or a store of its bytes from I on, within
memory. -/
theorem mem_of_exec {i : Instr} {s t : State} (e : exec i s = .next t) :
    t.mem = s.mem ∨ ∃ bs : List Byte, bs.length = i.storeLength ∧
      s.i.toNat + bs.length ≤ 4096 ∧ t.mem = s.mem.writeBytes s.i.toNat bs := by
  cases i with
  | ldBVx x =>
    rcases exec_ldBVx_cases s x with ⟨h, e'⟩ | ⟨-, e'⟩
    · cases e'.symm.trans e
      exact .inr ⟨decimalDigits (s.readV x), rfl, h, rfl⟩
    · cases e'.symm.trans e
      exact .inl rfl
  | ldMemVx x =>
    rcases exec_ldMemVx_cases s x with ⟨h, e'⟩ | ⟨-, e'⟩
    · cases e'.symm.trans e
      exact .inr ⟨regsUpTo s x, length_regsUpTo s x, by rwa [length_regsUpTo], rfl⟩
    · cases e'.symm.trans e
      exact .inl rfl
  | call nnn =>
    rcases exec_call_cases s nnn with ⟨_, e'⟩ | ⟨_, e'⟩ <;> cases e'.symm.trans e <;> exact .inl rfl
  | ret =>
    rcases exec_ret_cases s with ⟨_, e'⟩ | ⟨_, e'⟩ <;> cases e'.symm.trans e <;> exact .inl rfl
  | ldVxMem x =>
    rcases exec_ldVxMem_cases s x with ⟨_, e'⟩ | ⟨_, e'⟩ <;> cases e'.symm.trans e <;> exact .inl rfl
  | _ => cases e; exact .inl rfl

/-- Settles O43: memory is unchanged, or the store is of the instruction's length from I on. -/
theorem memoryChangesOnlyWhereStored : Obligations.MemoryChangesOnlyWhereStored := by
  intro i s t a e ha
  rw [State.readByte, State.readByte]
  rcases mem_of_exec e with hm | ⟨bs, hlen, -, hm⟩
  · rw [hm]
  · rw [hm, Memory.read_writeBytes_outside _ _ _ (by rwa [hlen])]

theorem mem_wf_of_exec {i : Instr} {s t : State} (h : s.mem.wf = true) (e : exec i s = .next t) :
    t.mem.wf = true := by
  rcases mem_of_exec e with hm | ⟨bs, -, hb, hm⟩
  · rwa [hm]
  · rw [hm]
    exact Memory.wf_writeBytes h _ _ hb

/-! ### The invariant -/

/-- The invariant reads only memory, PC and the stack. -/
theorem State.Inv.of_mem_wf {s t : State} (h : s.Inv) (hmem : t.mem.wf = true) (hpc : t.pc = s.pc)
    (hstack : t.stack = s.stack) (hsp : t.sp = s.sp) : t.Inv where
  memCanonical := hmem
  pcBound := hpc ▸ h.pcBound
  returnAddresses := by rw [hstack, hsp]; exact h.returnAddresses

/-- The highest next PC is that of an indexed jump, 0xFFF + 0xFF (R102). -/
theorem nextPc_le {i : Instr} {s : State} (h : s.Inv) (hi : i.wf = true) (hpc : s.pc.toNat ≤ 0xFFE) :
    (i.nextPc s).toNat ≤ 0x10FE := by
  by_cases hr : i.redirects = true
  case neg =>
    rcases nextPc_of_not_redirects s (by simpa using hr) with hn | hn <;> rw [hn] <;> bv_omega
  cases i with
  | jmp nnn | call nnn =>
    have hn := (addressFits_iff nnn).1 hi
    simp only [Instr.nextPc]
    omega
  | jmpV0 nnn =>
    have hn := (addressFits_iff nnn).1 hi
    have hv := (s.readV 0).isLt
    have htarget := indexedTarget_toNat s nnn
    change (indexedTarget s nnn).toNat ≤ _
    omega
  | ret =>
    rw [Instr.nextPc]
    split
    · omega
    · have hsp := s.sp.isLt
      have hret := h.returnAddresses (s.sp.val - 1) (by omega) (by omega)
      omega
  | _ => cases hr

/-- A call pushes `PC + 2` for the PC it was fetched from; a return only drops an entry; no other
instruction touches the stack. -/
theorem returnAddresses_of_exec {i : Instr} {s t : State} (h : s.Inv) (hpc : s.pc.toNat ≤ 0xFFE)
    (hf : i.faultIn s = .none) (e : exec i s = .next t) :
    ∀ k (hk : k < 16), k < t.sp.val → 2 ≤ t.stack[k].toNat ∧ t.stack[k].toNat ≤ 0x1000 := by
  by_cases hc : ∃ nnn, i = .call nnn
  · obtain ⟨nnn, rfl⟩ := hc
    obtain ⟨hsp, e'⟩ := exec_call_of_faultIn_eq_none hf
    cases e'.symm.trans e
    intro k hk hlt
    have hlt' : k < s.sp.val + 1 := hlt
    by_cases hks : s.sp.val = k
    · have hra : (returnAddress s).toNat = s.pc.toNat + 2 := by rw [returnAddress]; bv_omega
      simp only [hks, Vector.getElem_set_self, hra]
      omega
    · simp only [Vector.getElem_set_ne _ _ hks]
      exact h.returnAddresses k hk (by omega)
  by_cases hr : i = .ret
  · subst hr
    obtain ⟨_, e'⟩ := exec_ret_of_faultIn_eq_none hf
    cases e'.symm.trans e
    exact fun k hk hlt => h.returnAddresses k hk (Nat.lt_of_lt_of_le hlt (Nat.sub_le ..))
  obtain ⟨-, hframe, -⟩ := specialStateChangesOnlyByItsInstructions i s t e
  obtain ⟨hstack, hsp⟩ := hframe (fun nnn hi => hc ⟨nnn, hi⟩) hr
  rw [hstack, hsp]
  exact h.returnAddresses

/-- Every well-formed instruction keeps the invariant where it can be fetched. -/
theorem inv_of_exec {i : Instr} {s t : State} (h : s.Inv) (hi : i.wf = true) (hpc : s.pc.toNat ≤ 0xFFE)
    (e : exec i s = .next t) : t.Inv := by
  by_cases hf : i.faultIn s = .none
  · exact {
      memCanonical := mem_wf_of_exec h.memCanonical e
      pcBound := pc_of_exec hf e ▸ nextPc_le h hi hpc
      returnAddresses := returnAddresses_of_exec h hpc hf e }
  · cases (exec_of_faultIn_ne hf).symm.trans e
    exact h.of_mem_wf h.memCanonical rfl rfl rfl

/-- Settles O49: the step runs a decoded instruction, which is well formed, or takes the fetch fault. -/
theorem everyStepKeepsTheInvariant : Obligations.EveryStepKeepsTheInvariant := by
  intro s t h e
  rcases step_cases s with ⟨-, hpc, e'⟩ | ⟨-, -, e'⟩ | ⟨-, e'⟩
  · exact inv_of_exec h (decodeWord_wf _) hpc (e'.symm.trans e)
  · cases e'.symm.trans e
    exact h.of_mem_wf h.memCanonical rfl rfl rfl
  · cases e'.symm.trans e

/-! ### Host operations keep the invariant (R183 to R188) -/

/-- A load that succeeds fits memory and writes nothing but the buffer (R183). -/
theorem State.load_eq_ok {s t : State} {addr : Nat} {bs : List Byte} (e : s.load addr bs = .ok t) :
    addr + bs.length ≤ 4096 ∧ t = { s with mem := s.mem.writeBytes addr bs } := by
  rw [State.load] at e
  split at e
  case isTrue h => cases e; exact ⟨h, rfl⟩
  case isFalse => cases e

/-- A `key_set` that succeeds writes nothing but that key (R185). -/
theorem State.keySet_eq_ok {s t : State} {k : Nat} {pressed : Bool} (e : s.keySet k pressed = .ok t) :
    ∃ h : k < 16, t = { s with keys := s.keys.set k pressed h } := by
  rw [State.keySet] at e
  split at e
  case isTrue h => cases e; exact ⟨h, rfl⟩
  case isFalse => cases e

/-- A host operation keeps what both the state before it and its result, when there is one, have. -/
theorem State.doneOr_of_ok {P : State → Prop} {s : State} (hs : P s) {r : Except HostError State}
    (hr : ∀ t, r = .ok t → P t) : P (s.doneOr r).1 := by
  cases r with
  | ok t => exact hr t rfl
  | error _ => exact hs

theorem inv_driveStep {s : State} (h : s.Inv) : s.driveStep.1.Inv := by
  rw [State.driveStep]
  split
  case h_1 t e => exact everyStepKeepsTheInvariant s t h e
  all_goals exact h

theorem inv_drive {s : State} (h : s.Inv) (c : DriverCall) : (drive s c).1.Inv := by
  cases c with
  | step => exact inv_driveStep h
  | reset => exact invariantHoldsAtReset.of_mem_wf State.reset_mem_wf rfl rfl rfl
  | load addr bs =>
    refine State.doneOr_of_ok h fun t e => ?_
    have hwf := State.load_wf h.memCanonical e
    obtain ⟨-, rfl⟩ := State.load_eq_ok e
    exact h.of_mem_wf hwf rfl rfl rfl
  | disasm start stop => rw [drive]; split <;> exact h
  | keySet k pressed =>
    refine State.doneOr_of_ok h fun t e => ?_
    obtain ⟨_, rfl⟩ := State.keySet_eq_ok e
    exact h.of_mem_wf h.memCanonical rfl rfl rfl
  | dtSet _ | stSet _ => exact h.of_mem_wf h.memCanonical rfl rfl rfl
  | dtGet | stGet | readOut => exact h

theorem inv_driveAll {s : State} (h : s.Inv) (calls : List DriverCall) : (driveAll s calls).Inv := by
  induction calls generalizing s with
  | nil => exact h
  | cons c _ ih => exact ih (inv_drive h c)

/-- Settles O50, by the kind of call, and by induction on the calls from reset. -/
theorem everyDriverCallKeepsTheInvariant : Obligations.EveryDriverCallKeepsTheInvariant := by
  refine ⟨fun s c h => inv_drive h c, fun s hs => ?_⟩
  obtain ⟨calls, rfl⟩ := hs
  exact inv_driveAll invariantHoldsAtReset calls

/-! ### The fetch sees every store (R53) -/

/-- A fetch within memory reads what the state's bytes are. -/
theorem State.fetchReads_of_readByte {t : State} {p : Word} {byteAt : Nat → Byte} (hp : p.toNat ≤ 0xFFE)
    (h : ∀ a, t.readByte a = byteAt a) : t.FetchReads p byteAt := by
  rw [State.FetchReads, ← h, ← h]
  exact State.fetch_ok (s := { t with pc := p }) hp

/-- Every byte of memory after a register store that fits (R146). -/
theorem readByte_of_exec_ldMemVx {x : Reg} {s t : State} (h : s.mem.wf = true)
    (hb : s.i.toNat + x.val ≤ 4095) (e : exec (.ldMemVx x) s = .next t) (a : Nat) :
    t.readByte a = if h : s.i.toNat ≤ a ∧ a ≤ s.i.toNat + x.val
      then s.readV ⟨a - s.i.toNat, by have := x.isLt; omega⟩ else s.readByte a := by
  cases (exec_ldMemVx_of_faultIn_eq_none (if_neg (by omega))).symm.trans e
  have hlen := length_regsUpTo s x
  refine (Memory.read_writeBytes h _ _ (by omega) a).trans ?_
  by_cases ha : s.i.toNat ≤ a ∧ a ≤ s.i.toNat + x.val
  · rw [dif_pos ha, dif_pos (by omega), getElem_regsUpTo]
  · rw [dif_neg ha, dif_neg (by omega)]
    rfl

/-- Every byte of memory after a decimal store that fits (R145). -/
theorem readByte_of_exec_ldBVx {x : Reg} {s t : State} (h : s.mem.wf = true) (hb : s.i.toNat + 3 ≤ 4096)
    (e : exec (.ldBVx x) s = .next t) (a : Nat) :
    t.readByte a = if a = s.i.toNat then s.readV x / 100
      else if a = s.i.toNat + 1 then s.readV x / 10 % 10
      else if a = s.i.toNat + 2 then s.readV x % 10
      else s.readByte a := by
  cases (exec_ldBVx_of_faultIn_eq_none (if_neg (by omega))).symm.trans e
  by_cases ha : s.i.toNat ≤ a ∧ a < s.i.toNat + 3
  · obtain ⟨k, rfl⟩ := Nat.exists_eq_add_of_le ha.1
    have hk : k < 3 := by omega
    refine (Memory.read_writeBytes_inside h s.i.toNat (decimalDigits (s.readV x)) hb hk).trans ?_
    interval_cases k <;> simp [decimalDigits]
  · rw [if_neg (by omega), if_neg (by omega), if_neg (by omega)]
    exact Memory.read_writeBytes_outside s.mem s.i.toNat (decimalDigits (s.readV x))
      (by rw [length_decimalDigits]; omega)

/-- Settles O28: each store determines every byte, so those the fetch reads. -/
theorem fetchSeesEveryStore : Obligations.FetchSeesEveryStore := by
  refine ⟨fun x s t p h hb hp e => ?_, fun x s t p h hb hp e => ?_, fun s t addr bs p h hp e => ?_⟩
  · exact State.fetchReads_of_readByte hp (readByte_of_exec_ldMemVx h hb e)
  · exact State.fetchReads_of_readByte hp (readByte_of_exec_ldBVx h hb e)
  · obtain ⟨hb, rfl⟩ := State.load_eq_ok e
    exact State.fetchReads_of_readByte hp (Memory.read_writeBytes h addr bs hb)

/-! ### Bounded accesses (R42, R43) -/

/-- Settles O29, by what the bounded accesses do within bounds and beyond them. -/
theorem accessesAreBoundsCheckedAsAWhole : Obligations.AccessesAreBoundsCheckedAsAWhole := by
  refine ⟨fun s addr n hb => ?_, fun s addr n => State.memRead_bounds, fun s addr bs h hb => ?_,
    fun s addr bs => State.memWrite_bounds⟩
  · exact ⟨_, State.memRead_ok hb, Memory.length_readBytes .., fun k hk => Memory.getElem_readBytes ..⟩
  · exact ⟨_, State.memWrite_ok hb, rfl, fun k hk => Memory.read_writeBytes_inside h _ _ hb hk,
      fun a ha => Memory.read_writeBytes_outside _ _ _ ha⟩

/-! ### The canonical form has one memory for one contents (R40) -/

/-- A byte that is not the unlisted value stands no lower than the first listed address. -/
theorem Memory.le_of_read_ne {lo k : Nat} {m : Memory} (h : Memory.wfFrom lo m = true)
    (hk : m.read k ≠ Memory.unlisted) : lo ≤ k :=
  Nat.le_of_not_lt fun hlt => hk (Memory.read_below h hlt)

@[simp] theorem Memory.read_cons_self (a : Nat) (b : Byte) (m : Memory) :
    Memory.read ((a, b) :: m) a = b := if_pos rfl

/-- Behind a listed address the tail of a canonical memory reads as the memory does, up to it as unlisted. -/
theorem Memory.read_tail {a : Nat} {b : Byte} {m : Memory} (h : Memory.wfFrom (a + 1) m = true) (k : Nat) :
    m.read k = if k ≤ a then Memory.unlisted else Memory.read ((a, b) :: m) k := by
  split
  case isTrue hk => exact Memory.read_below h (by omega)
  case isFalse hk => rw [Memory.read, if_neg (by omega)]

theorem Memory.eq_of_read_eq {lo : Nat} {m₁ m₂ : Memory} (h₁ : Memory.wfFrom lo m₁ = true)
    (h₂ : Memory.wfFrom lo m₂ = true) (hr : ∀ a, m₁.read a = m₂.read a) : m₁ = m₂ := by
  induction m₁ generalizing lo m₂ with
  | nil =>
    cases m₂ with
    | nil => rfl
    | cons e₂ m₂ =>
      obtain ⟨a₂, b₂⟩ := e₂
      obtain ⟨-, -, hb₂, -⟩ := (Memory.wfFrom_cons ..).1 h₂
      exact absurd ((Memory.read_cons_self a₂ b₂ m₂).symm.trans (hr a₂).symm) hb₂
  | cons e₁ m₁ ih =>
    obtain ⟨a₁, b₁⟩ := e₁
    obtain ⟨-, hs₁, hb₁, ht₁⟩ := (Memory.wfFrom_cons ..).1 h₁
    cases m₂ with
    | nil => exact absurd ((Memory.read_cons_self a₁ b₁ m₁).symm.trans (hr a₁)) hb₁
    | cons e₂ m₂ =>
      obtain ⟨a₂, b₂⟩ := e₂
      obtain ⟨-, hs₂, hb₂, ht₂⟩ := (Memory.wfFrom_cons ..).1 h₂
      have hle₁ : a₁ ≤ a₂ := Memory.le_of_read_ne
        ((Memory.wfFrom_cons ..).2 ⟨le_rfl, hs₁, hb₁, ht₁⟩) (by simpa [hr] using hb₂)
      have hle₂ : a₂ ≤ a₁ := Memory.le_of_read_ne
        ((Memory.wfFrom_cons ..).2 ⟨le_rfl, hs₂, hb₂, ht₂⟩) (by simpa [← hr] using hb₁)
      obtain rfl : a₁ = a₂ := le_antisymm hle₁ hle₂
      obtain rfl : b₁ = b₂ := by simpa using hr a₁
      have htail : m₁ = m₂ := ih ht₁ ht₂ fun k => by
        rw [Memory.read_tail ht₁ k (b := b₁), Memory.read_tail ht₂ k (b := b₁), hr]
      rw [htail]

/-- Settles O30, by induction on the entries: both lists begin at the lowest byte that is not unlisted. -/
theorem canonicalMemoriesThatReadAlikeAreEqual :
    Obligations.CanonicalMemoriesThatReadAlikeAreEqual :=
  fun _ _ => Memory.eq_of_read_eq

end Sys2Proof.Machine
end

/-! Proofs of the family 30_encoding: operands fit their fields (R62), UNKNOWN words (R64, R70), the opcode
map as rows of mask and match (R73), and the renderings the spec prints (R74 to R78). -/
section

namespace Sys2Proof.Machine

/-- Settles O4: the decoder's well-formedness, at the word of two bytes. -/
theorem decodedOperandsFitTheirFields : Obligations.DecodedOperandsFitTheirFields :=
  fun _ _ => decodeWord_wf _

/-! ### The words that decode to UNKNOWN (R66 to R70) -/

theorem decodeFamily0_eq_unknown_iff (op : Word) :
    decodeFamily0 op = .unknown ↔ fieldKk op ∉ [0xE0#8, 0xEE#8] := by
  rw [decodeFamily0]
  split <;> simp_all [← BitVec.toNat_inj]

theorem decodeFamily8_eq_unknown_iff (op : Word) :
    decodeFamily8 op = .unknown ↔ (fieldN op).toNat ∈ [0x8, 0x9, 0xA, 0xB, 0xC, 0xD, 0xF] := by
  rw [decodeFamily8]
  split
  case h_10 =>
    have hlt := (fieldN op).isLt
    simp_all
    omega
  all_goals simp [*]

theorem decodeFamilyE_eq_unknown_iff (op : Word) :
    decodeFamilyE op = .unknown ↔ fieldKk op ∉ [0x9E#8, 0xA1#8] := by
  rw [decodeFamilyE]
  split <;> simp_all [← BitVec.toNat_inj]

theorem decodeFamilyF_eq_unknown_iff (op : Word) :
    decodeFamilyF op = .unknown ↔ fieldKk op ∉
      [0x07#8, 0x0A#8, 0x15#8, 0x18#8, 0x1E#8, 0x29#8, 0x33#8, 0x55#8, 0x65#8] := by
  rw [decodeFamilyF]
  split <;> simp_all [← BitVec.toNat_inj]

/-- Only the families with sub-operations (the decoder's arms 1, 9, 15 and 16) have UNKNOWN words; a family
is a 4-bit value, so arm 17 is never taken. -/
theorem decodeWord_eq_unknown_iff (op : Word) :
    decodeWord op = .unknown ↔
      (fieldFamily op = 0x0#4 ∧ fieldKk op ∉ [0xE0#8, 0xEE#8]) ∨
      (fieldFamily op = 0x8#4 ∧ (fieldN op).toNat ∈ [0x8, 0x9, 0xA, 0xB, 0xC, 0xD, 0xF]) ∨
      (fieldFamily op = 0xE#4 ∧ fieldKk op ∉ [0x9E#8, 0xA1#8]) ∨
      (fieldFamily op = 0xF#4 ∧ fieldKk op ∉
        [0x07#8, 0x0A#8, 0x15#8, 0x18#8, 0x1E#8, 0x29#8, 0x33#8, 0x55#8, 0x65#8]) := by
  rw [← decodeFamily0_eq_unknown_iff, ← decodeFamily8_eq_unknown_iff, ← decodeFamilyE_eq_unknown_iff,
    ← decodeFamilyF_eq_unknown_iff]
  simp only [← BitVec.toNat_inj]
  rw [decodeWord]
  split
  case h_17 =>
    have hlt := (fieldFamily op).isLt
    interval_cases (fieldFamily op).toNat <;> contradiction
  all_goals simp [*]

/-- Settles O3: only four families have UNKNOWN words, each those its table does not list. -/
theorem unknownWordsAreExactlyTheUnlistedSubOperations :
    Obligations.UnknownWordsAreExactlyTheUnlistedSubOperations := by
  intro f x byte2
  have hn : (fieldN (opcodeWord (f ++ x) byte2)).toNat = byte2.toNat % 16 := by
    rw [fieldN_toNat, opcodeWord_toNat]
    omega
  rw [decode, decodeWord_eq_unknown_iff, hn, fieldFamily_opcodeWord, fieldKk_opcodeWord]

/-! ### The row of the decoded instruction is selected (R73) -/

section
variable {op m : Word} {f : Nat} (hf : (fieldFamily op).toNat = f)
include hf

theorem selects_of_family (hm : m.toNat = f * 4096) : selects op (0xF000#16, m) = true := by
  have hlt := op.isLt
  rw [fieldFamily_toNat] at hf
  rw [selects_F000]
  omega

theorem selects_of_family_of_fieldN {n : Nat} (hn : (fieldN op).toNat = n) (hm : m.toNat = f * 4096 + n) :
    selects op (0xF00F#16, m) = true := by
  have hlt := op.isLt
  rw [fieldFamily_toNat] at hf
  rw [fieldN_toNat] at hn
  rw [selects_F00F]
  omega

theorem selects_of_family_of_fieldKk {kk : Nat} (hk : (fieldKk op).toNat = kk)
    (hm : m.toNat = f * 4096 + kk) : selects op (0xF0FF#16, m) = true := by
  have hlt := op.isLt
  rw [fieldFamily_toNat] at hf
  rw [fieldKk_toNat] at hk
  rw [selects_F0FF]
  omega

end

/-- The word selects the instruction's row of the opcode map, when it has one. -/
def SelectsRowOf (op : Word) (i : Instr) : Prop := ∀ row, i.row = some row → selects op row = true

theorem SelectsRowOf.of_row {op : Word} {i : Instr} {row : Word × Word} (hi : i.row = some row)
    (h : selects op row = true) : SelectsRowOf op i := fun row' h' => by
  cases hi.symm.trans h'
  exact h

theorem selectsRowOf_unknown (op : Word) : SelectsRowOf op .unknown := fun _ h => nomatch h

theorem selectsRowOf_decodeFamily0 {op : Word} (hf : (fieldFamily op).toNat = 0x0) :
    SelectsRowOf op (decodeFamily0 op) := by
  rw [decodeFamily0]
  split
  case h_3 => exact selectsRowOf_unknown op
  all_goals exact .of_row rfl (selects_of_family_of_fieldKk hf ‹_› rfl)

theorem selectsRowOf_decodeFamily8 {op : Word} (hf : (fieldFamily op).toNat = 0x8) :
    SelectsRowOf op (decodeFamily8 op) := by
  rw [decodeFamily8]
  split
  case h_10 => exact selectsRowOf_unknown op
  all_goals exact .of_row rfl (selects_of_family_of_fieldN hf ‹_› rfl)

theorem selectsRowOf_decodeFamilyE {op : Word} (hf : (fieldFamily op).toNat = 0xE) :
    SelectsRowOf op (decodeFamilyE op) := by
  rw [decodeFamilyE]
  split
  case h_3 => exact selectsRowOf_unknown op
  all_goals exact .of_row rfl (selects_of_family_of_fieldKk hf ‹_› rfl)

theorem selectsRowOf_decodeFamilyF {op : Word} (hf : (fieldFamily op).toNat = 0xF) :
    SelectsRowOf op (decodeFamilyF op) := by
  rw [decodeFamilyF]
  split
  case h_10 => exact selectsRowOf_unknown op
  all_goals exact .of_row rfl (selects_of_family_of_fieldKk hf ‹_› rfl)

theorem selectsRowOf_decodeWord (op : Word) : SelectsRowOf op (decodeWord op) := by
  rw [decodeWord]
  split
  case h_1 hf => exact selectsRowOf_decodeFamily0 hf
  case h_9 hf => exact selectsRowOf_decodeFamily8 hf
  case h_15 hf => exact selectsRowOf_decodeFamilyE hf
  case h_16 hf => exact selectsRowOf_decodeFamilyF hf
  case h_17 => exact selectsRowOf_unknown op
  all_goals exact .of_row rfl (selects_of_family ‹_› rfl)

/-! ### The rows are disjoint, and UNKNOWN words select none (R73) -/

theorem fieldFamily_and (a b : Word) : fieldFamily (a &&& b) = fieldFamily a &&& fieldFamily b :=
  BitVec.extractLsb'_and

theorem fieldKk_and (a b : Word) : fieldKk (a &&& b) = fieldKk a &&& fieldKk b :=
  BitVec.extractLsb'_and

theorem fieldN_and (a b : Word) : fieldN (a &&& b) = fieldN a &&& fieldN b :=
  BitVec.extractLsb'_and

/-- Every row examines the family and, where the family has sub-operations, the whole selector. -/
theorem opcodeRows_examine : ∀ row ∈ opcodeRows,
    fieldFamily row.1 = BitVec.allOnes 4 ∧
    (fieldFamily row.2 = 0x8#4 → fieldN row.1 = BitVec.allOnes 4) ∧
    (fieldFamily row.2 ∈ [0x0#4, 0xE#4, 0xF#4] → fieldKk row.1 = BitVec.allOnes 8) := by
  rw [← List.forall_iff_forall_mem]
  decide

theorem opcodeRows_known : ∀ row ∈ opcodeRows, decodeWord row.2 ≠ .unknown := by
  rw [← List.forall_iff_forall_mem]
  decide

/-- A word agrees with the match word of a row it selects in the family, and in the selector where that can
make it UNKNOWN; so an UNKNOWN word would make the match word UNKNOWN. -/
theorem decodeWord_ne_unknown_of_selects {op : Word} {row : Word × Word} (hmem : row ∈ opcodeRows)
    (hs : selects op row = true) : decodeWord op ≠ .unknown := by
  rw [selects, beq_iff_eq] at hs
  obtain ⟨hfamily, hn, hkk⟩ := opcodeRows_examine row hmem
  have hf : fieldFamily row.2 = fieldFamily op := by
    rw [← hs, fieldFamily_and, hfamily, BitVec.and_allOnes]
  replace hn (h : fieldFamily op = 0x8#4) : fieldN row.2 = fieldN op := by
    rw [← hs, fieldN_and, hn (hf.trans h), BitVec.and_allOnes]
  replace hkk (h : fieldFamily op ∈ [0x0#4, 0xE#4, 0xF#4]) : fieldKk row.2 = fieldKk op := by
    rw [← hs, fieldKk_and, hkk (hf ▸ h), BitVec.and_allOnes]
  refine fun hu => opcodeRows_known row hmem ?_
  rw [decodeWord_eq_unknown_iff] at hu ⊢
  rw [hf]
  rcases hu with ⟨h, hu⟩ | ⟨h, hu⟩ | ⟨h, hu⟩ | ⟨h, hu⟩
  · exact .inl ⟨h, by rwa [hkk (by simp [h])]⟩
  · exact .inr (.inl ⟨h, by rwa [hn h]⟩)
  · exact .inr (.inr (.inl ⟨h, by rwa [hkk (by simp [h])]⟩))
  · exact .inr (.inr (.inr ⟨h, by rwa [hkk (by simp [h])]⟩))

/-- No two different rows agree on the bits under both their masks. -/
theorem opcodeRows_eq_of_agree : ∀ r₁ ∈ opcodeRows, ∀ r₂ ∈ opcodeRows,
    r₁.2 &&& r₂.1 = r₂.2 &&& r₁.1 → r₁ = r₂ := by
  simp only [← List.forall_iff_forall_mem]
  decide

/-- Two rows that one word selects agree with it, so with each other, under both masks. -/
theorem opcodeRows_disjoint {op : Word} {r₁ r₂ : Word × Word} (h₁ : r₁ ∈ opcodeRows) (h₂ : r₂ ∈ opcodeRows)
    (hs₁ : selects op r₁ = true) (hs₂ : selects op r₂ = true) : r₁ = r₂ := by
  rw [selects, beq_iff_eq] at hs₁ hs₂
  refine opcodeRows_eq_of_agree r₁ h₁ r₂ h₂ ?_
  rw [← hs₁, ← hs₂, BitVec.and_assoc, BitVec.and_assoc, BitVec.and_comm r₁.1]

theorem row_mem_opcodeRows {i : Instr} {row : Word × Word} (h : i.row = some row) : row ∈ opcodeRows := by
  cases i <;> cases h <;> decide

theorem exists_row_of_ne_unknown {i : Instr} (h : i ≠ .unknown) : ∃ row, i.row = some row := by
  cases i with
  | unknown => exact absurd rfl h
  | _ => exact ⟨_, rfl⟩

/-- A word that decodes to an instruction selects that instruction's row, a row of the table. -/
theorem decodeWord_row_of_ne_unknown {op : Word} (h : decodeWord op ≠ .unknown) :
    ∃ row ∈ opcodeRows, (decodeWord op).row = some row ∧ selects op row = true := by
  obtain ⟨row, hrow⟩ := exists_row_of_ne_unknown h
  exact ⟨row, row_mem_opcodeRows hrow, hrow, selectsRowOf_decodeWord op row hrow⟩

theorem decodeWord_eq_unknown_iff_selects (op : Word) :
    decodeWord op = .unknown ↔ ∀ row ∈ opcodeRows, selects op row = false := by
  constructor
  · intro hu row hmem
    exact Bool.eq_false_iff.2 fun hs => decodeWord_ne_unknown_of_selects hmem hs hu
  · intro hnone
    by_contra hu
    obtain ⟨row, hmem, -, hs⟩ := decodeWord_row_of_ne_unknown hu
    exact Bool.eq_false_iff.1 (hnone row hmem) hs

theorem selects_iff_decodeWord_row {op : Word} {row : Word × Word} (hmem : row ∈ opcodeRows) :
    selects op row = true ↔ (decodeWord op).row = some row := by
  refine ⟨fun hs => ?_, selectsRowOf_decodeWord op row⟩
  obtain ⟨row', hmem', hrow, hs'⟩ :=
    decodeWord_row_of_ne_unknown (decodeWord_ne_unknown_of_selects hmem hs)
  rw [hrow, opcodeRows_disjoint hmem' hmem hs' hs]

/-- Settles O2: the decoded instruction's row is selected, no second row is, and UNKNOWN words select none. -/
theorem wordsSelectTheirRowOfTheOpcodeMap : Obligations.WordsSelectTheirRowOfTheOpcodeMap :=
  ⟨rfl, fun _ _ => selects_iff_decodeWord_row, fun _ _ _ => opcodeRows_disjoint,
    fun op => (decodeWord_eq_unknown_iff_selects op).symm⟩

/-- Settles O6, by evaluating the decoder and the renderer on the twelve words. -/
theorem sampleVariantsRender : Obligations.SampleVariantsRender := by
  unfold Obligations.SampleVariantsRender
  decide

end Sys2Proof.Machine
end

/-! Proofs of the family 40_control_transfer: jumps (R101, R102), call and return (R103, R104) and the
skips (R105 to R110). -/
section

namespace Sys2Proof.Machine

/-! ### Call and return (R103, R104) -/

theorem exec_call_of_lt {s : State} (nnn : Word) (h : s.sp.val < 16) :
    exec (.call nnn) s = .next { s with
      pc := nnn, stack := s.stack.set s.sp.val (s.pc + 2) h, sp := ⟨s.sp.val + 1, by omega⟩ } := by
  obtain ⟨_, e⟩ := exec_call_of_faultIn_eq_none (nnn := nnn) (if_neg (Nat.ne_of_lt h))
  exact e

theorem exec_ret_of_pos {s : State} (h : 0 < s.sp.val) :
    exec .ret s = .next { s with
      pc := s.stack[s.sp.val - 1]'(by have := s.sp.isLt; omega),
      sp := ⟨s.sp.val - 1, by have := s.sp.isLt; omega⟩ } := by
  obtain ⟨_, e⟩ := exec_ret_of_faultIn_eq_none (if_neg (Nat.ne_of_gt h))
  exact e

/-- A return whose top entry, number `n`, is `w`. -/
theorem exec_ret_of_top {u : State} {n : Fin 17} {w : Word} (hn : n.val < 16)
    (hsp : u.sp.val = n.val + 1) (htop : u.stack[n.val] = w) :
    exec .ret u = .next { u with pc := w, sp := n } := by
  rw [exec_ret_of_pos (by omega)]
  simp only [hsp, Nat.add_sub_cancel, htop]

/-- Settles O11: the entry on top of the call's stack is the one it pushed. -/
theorem returnComesBackBehindTheCall : Obligations.ReturnComesBackBehindTheCall := by
  intro nnn s t u hroom e hsp hlive
  cases (exec_call_of_lt nnn hroom).symm.trans e
  refine exec_ret_of_top hroom (congrArg Fin.val hsp) ?_
  rw [hlive s.sp.val hroom (Nat.lt_succ_self _)]
  exact Vector.getElem_set_self _

/-- Settles O9, by whether the stack has room; the return is O11 in the state the call left. -/
theorem callPushesTheReturnAddress : Obligations.CallPushesTheReturnAddress := by
  refine ⟨fun hi lo => by simp [decode, decodeWord], fun nnn s hroom => ?_, fun nnn s hfull => ?_,
    fun nnn s t hroom e => returnComesBackBehindTheCall nnn s t t hroom e rfl fun _ _ _ => rfl⟩
  · exact ⟨_, exec_call_of_lt nnn hroom, rfl, Vector.getElem_set_self _,
      fun k hk hne => Vector.getElem_set_ne hroom hk hne.symm, rfl⟩
  · have hf : (Instr.call nnn).faultIn s = .stackOverflow := if_pos hfull
    rw [exec_of_faultIn_ne (by simp [hf]), hf]

/-- Settles O10, by whether the stack has an entry. -/
theorem returnPopsIntoPc : Obligations.ReturnPopsIntoPc := by
  refine ⟨fun a => by simp [decode, decodeWord, decodeFamily0], fun s hpos => ?_, fun s hempty => ?_⟩
  · exact ⟨_, exec_ret_of_pos hpos, rfl, rfl, rfl⟩
  · have hf : Instr.ret.faultIn s = .stackUnderflow := if_pos hempty
    rw [exec_of_faultIn_ne (by simp [hf]), hf]

/-! ### Jumps (R101, R102) -/

/-- The sum of a 12-bit address and a byte is at most 0x10FE, so it does not wrap. -/
theorem indexedTarget_toNat_of_le (s : State) {nnn : Word} (h : nnn.toNat ≤ 0xFFF) :
    (indexedTarget s nnn).toNat = nnn.toNat + (s.readV 0).toNat := by
  have hv := (s.readV 0).isLt
  rw [indexedTarget_toNat]
  omega

/-- Settles O8: the indexed sum does not wrap, and no jump sets the latch, so the next step fetches. -/
theorem jumpsSetPcToTheTarget : Obligations.JumpsSetPcToTheTarget := by
  refine ⟨fun hi lo => by simp [decode, decodeWord], fun hi lo => by simp [decode, decodeWord],
    fun _ _ => rfl, fun nnn s hn => ?_, fun nnn s t hf e hpc => ?_⟩
  · have hv := (s.readV 0).isLt
    have htarget := indexedTarget_toNat_of_le s hn
    exact ⟨indexedTarget s nnn, htarget, by omega, rfl⟩
  · have hlatch : t.fault = s.fault := by rcases e with e | e <;> cases e <;> rfl
    exact step_fetchFault (hlatch.trans hf) hpc

/-! ### Skips (R105 to R110) -/

theorem State.skipWhen_eq_withPc (s : State) (c : Bool) :
    s.skipWhen c = { s with pc := if c then s.pc + 4 else s.pc + 2 } := rfl

/-- A skip on a negated condition moves PC by 2 where the condition holds. -/
theorem State.skipWhen_not (s : State) (c : Bool) :
    s.skipWhen (!c) = { s with pc := if c then s.pc + 2 else s.pc + 4 } := by
  cases c <;> rfl

/-- Settles O12: each `sne` skips on the negation of what its `se` compares. -/
theorem skipsCompareRegistersAndImmediates : Obligations.SkipsCompareRegistersAndImmediates := by
  refine ⟨fun x kk => by simp [decode, decodeWord], fun x y n => by simp [decode, decodeWord],
    fun x kk s => ?_, fun x kk s => ?_, fun x y s => ?_, fun x y s => ?_⟩
  · simp only [exec_seVxKk, State.skipWhen_eq_withPc, beq_iff_eq]
  · simp only [exec_sneVxKk, bne, State.skipWhen_not, beq_iff_eq]
  · simp only [exec_seVxVy, State.skipWhen_eq_withPc, beq_iff_eq]
  · simp only [exec_sneVxVy, bne, State.skipWhen_not, beq_iff_eq]

/-- Settles O13, by whether the number in `V[x]` names a key. -/
theorem keySkipsReadTheKeyMap : Obligations.KeySkipsReadTheKeyMap := by
  refine ⟨fun x => by simp [decode, decodeWord, decodeFamilyE], fun x s h => ?_, fun x s h => ?_⟩
  · rw [← keyPressed_of_lt s (s.readV x) (by omega), exec_skpVx, exec_sknpVx, State.skipWhen_not]
    exact ⟨rfl, rfl⟩
  · rw [exec_skpVx, exec_sknpVx, keyPressed_absent s (s.readV x) h]
    exact ⟨rfl, rfl⟩

end Sys2Proof.Machine
end

/-! Proofs of the family 41_alu: loads and arithmetic without a flag (R120 to R125, R142), arithmetic with a
carry or borrow flag (R126, R127, R129), shifts (R128, R130) and the random byte (R132). -/
section

namespace Sys2Proof.Machine

/-! ### One register written (R120 to R125, R142) -/

theorem writesRegister_writeV (s : State) (x : Reg) (b : Byte) :
    WritesRegister s (s.writeV x b).advance x b :=
  ⟨State.readV_writeV_same s x b, fun _ h => State.readV_writeV_ne s b h, rfl⟩

/-- Settles O14: each load is one register write. -/
theorem loadsWriteTheTargetRegister : Obligations.LoadsWriteTheTargetRegister :=
  ⟨fun x kk => by simp [decode, decodeWord], fun x y => by simp [decode, decodeWord, decodeFamily8],
    fun x => by simp [decode, decodeWord, decodeFamilyF],
    fun x kk s => ⟨_, exec_ldVxKk s x kk, writesRegister_writeV s x kk⟩,
    fun x y s => ⟨_, exec_ldVxVy s x y, writesRegister_writeV s x (s.readV y)⟩,
    fun x s => ⟨_, exec_ldVxDt s x, writesRegister_writeV s x s.dt⟩⟩

/-- Settles O15: one register write, of a sum that `BitVec` addition takes modulo 256. -/
theorem addImmediateWrapsAndSetsNoFlag : Obligations.AddImmediateWrapsAndSetsNoFlag :=
  ⟨fun x kk => by simp [decode, decodeWord], fun x kk s =>
    ⟨_, _, exec_addVxKk s x kk, writesRegister_writeV s x _, BitVec.toNat_add (s.readV x) kk⟩⟩

/-- Settles O16: each operation is one register write, of a byte whose bits the library gives. -/
theorem bitwiseOperationsActOnEveryBit : Obligations.BitwiseOperationsActOnEveryBit :=
  ⟨fun x y => by simp [decode, decodeWord, decodeFamily8],
    fun x y s => ⟨_, _, exec_orVxVy s x y, writesRegister_writeV s x _, fun _ _ => BitVec.getLsbD_or⟩,
    fun x y s => ⟨_, _, exec_andVxVy s x y, writesRegister_writeV s x _, fun _ _ => BitVec.getLsbD_and⟩,
    fun x y s => ⟨_, _, exec_xorVxVy s x y, writesRegister_writeV s x _, fun _ _ => BitVec.getLsbD_xor⟩⟩

/-! ### A result and then its flag (R126, R127, R129) -/

theorem writesResultThenFlag_resultThenFlag (s : State) (x : Reg) (b : Byte) (flag : Bool) :
    WritesResultThenFlag s (s.resultThenFlag x b flag).advance x b (flagByte flag) := by
  refine ⟨?_, fun hx => ?_, fun r hrx hrf => ?_, rfl⟩ <;>
    rw [State.advance_eq, State.readV_jumpTo, State.readV_resultThenFlag]
  · rw [if_pos rfl]
  · rw [if_neg hx, if_pos rfl]
  · rw [if_neg hrf, if_neg hrx]

theorem flagByte_carryOut (a b : Byte) :
    flagByte (carryOut a b) = if 256 ≤ a.toNat + b.toNat then 0x01 else 0x00 := by
  simp only [flagByte, carryOut_iff]
  rfl

theorem flagByte_notBorrow (a b : Byte) :
    flagByte (notBorrow a b) = if a.toNat < b.toNat then 0x00 else 0x01 := by
  simp only [flagByte, notBorrow_iff, ← Nat.not_lt, ite_not]
  rfl

theorem toNat_sub_eq_wrapped (a b : Byte) : (a - b).toNat = (256 + a.toNat - b.toNat) % 256 := by
  rw [BitVec.toNat_sub]
  omega

/-- Settles O17: the carry is bit 8 of the exact sum. -/
theorem addStoresTheSumThenTheCarry : Obligations.AddStoresTheSumThenTheCarry :=
  ⟨fun x y => by simp [decode, decodeWord, decodeFamily8], fun x y s =>
    ⟨_, _, exec_addVxVy s x y, flagByte_carryOut (s.readV x) (s.readV y) ▸
      writesResultThenFlag_resultThenFlag s x _ _, BitVec.toNat_add (s.readV x) (s.readV y)⟩⟩

/-- Settles O18: both subtractions, the second with its operands exchanged. -/
theorem subtractsStoreTheDifferenceThenNotBorrow :
    Obligations.SubtractsStoreTheDifferenceThenNotBorrow :=
  ⟨fun x y => by simp [decode, decodeWord, decodeFamily8],
    fun x y s => ⟨_, _, exec_subVxVy s x y, flagByte_notBorrow (s.readV x) (s.readV y) ▸
      writesResultThenFlag_resultThenFlag s x _ _, toNat_sub_eq_wrapped (s.readV x) (s.readV y)⟩,
    fun x y s => ⟨_, _, exec_subnVxVy s x y, flagByte_notBorrow (s.readV y) (s.readV x) ▸
      writesResultThenFlag_resultThenFlag s x _ _, toNat_sub_eq_wrapped (s.readV y) (s.readV x)⟩⟩

/-! ### A flag and then the shift (R128, R130) -/

section FlagThenShift

variable (s : State) (flag : Byte → Bool) (shift : Byte → Byte) {x r : Reg}

theorem State.readV_flagThenShift_target (hx : x ≠ Reg.vf) :
    (s.flagThenShift x flag shift).readV x = shift (s.readV x) := by
  rw [State.readV_flagThenShift, if_pos rfl, if_neg hx]

theorem State.readV_flagThenShift_flag (hx : x ≠ Reg.vf) :
    (s.flagThenShift x flag shift).readV Reg.vf = flagByte (flag (s.readV x)) := by
  rw [State.readV_flagThenShift, if_neg hx.symm, if_pos rfl]

/-- With VF as the target the flag is written first and then shifted. -/
theorem State.readV_flagThenShift_vf :
    (s.flagThenShift Reg.vf flag shift).readV Reg.vf = shift (flagByte (flag (s.readV Reg.vf))) := by
  rw [State.readV_flagThenShift, if_pos rfl, if_pos rfl]

theorem State.readV_flagThenShift_other (hrx : r ≠ x) (hrf : r ≠ Reg.vf) :
    (s.flagThenShift x flag shift).readV r = s.readV r := by
  rw [State.readV_flagThenShift, if_neg hrx, if_neg hrf]

end FlagThenShift

theorem toNat_flagByte (f : Bool) : (flagByte f).toNat = f.toNat := by cases f <;> rfl

theorem toNat_shrFlag (a : Byte) : (shrFlag a).toNat = a.toNat % 2 := by
  rw [shrFlag, BitVec.getLsbD, Nat.toNat_testBit, pow_zero, Nat.div_one]

theorem toNat_shlFlag_bit0 (a : Byte) : (shlFlag .bit0 a).toNat = a.toNat % 2 := toNat_shrFlag a

theorem toNat_shlFlag_bit7 (a : Byte) : (shlFlag .bit7 a).toNat = a.toNat / 128 := by
  have ha := a.isLt
  rw [shlFlag, BitVec.getLsbD, Config.ShlFlagBit.index, Nat.toNat_testBit]
  omega

theorem toNat_ushiftRight_one (a : Byte) : (a >>> 1).toNat = a.toNat / 2 := by
  rw [BitVec.toNat_ushiftRight, Nat.shiftRight_eq_div_pow, pow_one]

theorem toNat_shiftLeft_one (a : Byte) : (a <<< 1).toNat = 2 * a.toNat % 256 := by
  rw [BitVec.toNat_shiftLeft, Nat.shiftLeft_eq, pow_one, Nat.mul_comm]

/-- Settles O19: with `x = 15` the shift takes the only bit of the flag byte. -/
theorem shiftRightHalvesAndKeepsTheLowBit : Obligations.ShiftRightHalvesAndKeepsTheLowBit := by
  refine ⟨fun x y => by simp [decode, decodeWord, decodeFamily8], fun x y s =>
    ⟨_, exec_shrVx s x y, fun hx => ⟨?_, ?_⟩, ?_,
      fun r hrx hrf => s.readV_flagThenShift_other shrFlag (· >>> 1) hrx hrf, rfl⟩⟩ <;>
    rw [State.advance_eq, State.readV_jumpTo]
  · rw [s.readV_flagThenShift_target _ _ hx, toNat_ushiftRight_one]
  · rw [s.readV_flagThenShift_flag _ _ hx, toNat_flagByte, toNat_shrFlag]
  · rintro rfl
    rw [s.readV_flagThenShift_vf]
    cases shrFlag (s.readV Reg.vf) <;> rfl

/-- `V[x]` and VF after `shl`, for both configurations of `SHL_FLAG_BIT`. -/
theorem toNat_readV_shiftLeft (bit : Config.ShlFlagBit) (x : Reg) (s : State) :
    (x ≠ Reg.vf → ((shiftLeft bit x s).readV x).toNat = 2 * (s.readV x).toNat % 256 ∧
      ((shiftLeft bit x s).readV Reg.vf).toNat = (shlFlag bit (s.readV x)).toNat) ∧
    (x = Reg.vf → ((shiftLeft bit x s).readV Reg.vf).toNat = 2 * (shlFlag bit (s.readV x)).toNat) := by
  rw [shiftLeft_eq]
  refine ⟨fun hx => ⟨?_, ?_⟩, ?_⟩
  · rw [s.readV_flagThenShift_target _ _ hx, toNat_shiftLeft_one]
  · rw [s.readV_flagThenShift_flag _ _ hx, toNat_flagByte]
  · rintro rfl
    rw [s.readV_flagThenShift_vf]
    cases shlFlag bit (s.readV Reg.vf) <;> rfl

/-- Settles O20: both configurations are one lemma, at bit 0 and at bit 7 of the old `V[x]`. -/
theorem shiftLeftDoublesAndCopiesTheFlagBit : Obligations.ShiftLeftDoublesAndCopiesTheFlagBit := by
  refine ⟨rfl, fun x y => by simp [decode, decodeWord, decodeFamily8], fun x y s => ?_, ?_⟩
  · have h := toNat_readV_shiftLeft .bit0 x s
    rw [toNat_shlFlag_bit0] at h
    obtain ⟨hne, hvf⟩ := h
    exact ⟨_, exec_shlVx s x y, hne, hvf,
      fun r hrx hrf => s.readV_flagThenShift_other (shlFlag .bit0) (· <<< 1) hrx hrf, rfl⟩
  · rintro x s _ rfl
    have h := toNat_readV_shiftLeft .bit7 x s
    rwa [toNat_shlFlag_bit7] at h

/-! ### The random byte (R132) -/

/-- Settles O21: one register write, of a byte that is 0 wherever the mask is, whatever the draw. -/
theorem randomAndMasksTheDrawnByte : Obligations.RandomAndMasksTheDrawnByte := by
  refine ⟨fun x kk => by simp [decode, decodeWord], fun x kk s => ⟨_, exec_rndVxKk s x kk, ?_⟩⟩
  have hx : (s.writeV x (s.rndByte &&& kk)).readV x = s.rndByte &&& kk := State.readV_writeV_same s x _
  refine ⟨hx, fun k hk => ?_, fun r hr => State.readV_writeV_ne s _ hr, rfl⟩
  rw [State.advance_eq, State.readV_jumpTo, State.readV_countDraw, hx, BitVec.getLsbD_and, hk,
    Bool.and_false]

end Sys2Proof.Machine
end

/-! Proofs of the family 42_index_timer_memory: the index register (R140, R141), the timers (R143, R144) and
the stores and the load at I (R145 to R147). -/
section

namespace Sys2Proof.Machine

/-! ### The sound timer (R19, R144) -/

/-- Every instruction but `ld st` neither reads nor writes ST: it does the same whatever ST holds. -/
theorem exec_withSt {i : Instr} {s t : State} (hst : ∀ x, i ≠ .ldStVx x) (e : exec i s = .next t)
    (b : Byte) : exec i { s with st := b } = .next { t with st := b } := by
  by_cases hf : i.faultIn s = .none
  case neg =>
    cases (exec_of_faultIn_ne hf).symm.trans e
    exact exec_of_faultIn_ne (s := { s with st := b }) hf
  cases i with
  | ldStVx x => exact absurd rfl (hst x)
  | call nnn =>
    obtain ⟨_, e'⟩ := exec_call_of_faultIn_eq_none hf
    cases e'.symm.trans e
    obtain ⟨_, eb⟩ := exec_call_of_faultIn_eq_none (s := { s with st := b }) hf
    exact eb
  | ret =>
    obtain ⟨_, e'⟩ := exec_ret_of_faultIn_eq_none hf
    cases e'.symm.trans e
    obtain ⟨_, eb⟩ := exec_ret_of_faultIn_eq_none (s := { s with st := b }) hf
    exact eb
  | ldBVx x =>
    cases (exec_ldBVx_of_faultIn_eq_none hf).symm.trans e
    exact exec_ldBVx_of_faultIn_eq_none (s := { s with st := b }) hf
  | ldMemVx x =>
    cases (exec_ldMemVx_of_faultIn_eq_none hf).symm.trans e
    exact exec_ldMemVx_of_faultIn_eq_none (s := { s with st := b }) hf
  | ldVxMem x =>
    cases (exec_ldVxMem_of_faultIn_eq_none hf).symm.trans e
    exact exec_ldVxMem_of_faultIn_eq_none (s := { s with st := b }) hf
  | _ => cases e; rfl

/-- Settles O55: the fetch does not read ST, so the step runs the same instruction or takes the same fetch
fault; `ld st` overwrites what ST held. -/
theorem noInstructionReadsTheSoundTimer : Obligations.NoInstructionReadsTheSoundTimer := by
  refine ⟨fun s t b e hst => ?_, fun _ _ _ => rfl⟩
  rcases step_cases s with ⟨hf, hpc, e'⟩ | ⟨hf, hpc, e'⟩ | ⟨-, e'⟩
  · rw [e'] at e
    exact (step_runs (s := { s with st := b }) hf hpc).trans (exec_withSt hst e b)
  · cases e'.symm.trans e
    exact step_fetchFault (s := { s with st := b }) hf hpc
  · cases e'.symm.trans e

/-! ### The index register (R140, R141) -/

/-- Settles O22: `add i` adds 16-bit words, so the sum is taken modulo 65536. -/
theorem indexRegisterInstructions : Obligations.IndexRegisterInstructions := by
  refine ⟨fun hi lo => by simp [decode, decodeWord], fun x => by simp [decode, decodeWord, decodeFamilyF],
    fun nnn s => exec_ldI s nnn, fun x s => ⟨s.i + zext16 (s.readV x), ?_, exec_addIVx s x⟩⟩
  rw [BitVec.toNat_add, zext16_toNat]

/-! ### The timers (R143, R144) -/

/-- Settles O23: each write is one timer update and the default PC update. -/
theorem timerWritesCopyTheRegister : Obligations.TimerWritesCopyTheRegister :=
  ⟨fun x => by simp [decode, decodeWord, decodeFamilyF], fun x s => exec_ldDtVx s x,
    fun x s => exec_ldStVx s x⟩

/-! ### Stores at I (R145, R146) -/

/-- An instruction that the table gives `MemoryBounds` sets the latch to it and does nothing else. -/
theorem exec_of_faultIn_eq_memoryBounds {i : Instr} {s : State} (hf : i.faultIn s = .memoryBounds) :
    exec i s = .next { s with fault := .memoryBounds } := by
  rw [exec_of_faultIn_ne (by simp [hf]), hf]

/-- A store of bytes from I on, with the default PC update, changes no other byte and nothing else. -/
theorem storesAtI_writeBytes (s : State) (bs : List Byte) :
    StoresAtI s { s with mem := s.mem.writeBytes s.i.toNat bs, pc := s.pc + 2 } bs.length :=
  ⟨fun _ ha => Memory.read_writeBytes_outside _ _ _ ha, rfl⟩

/-- The three bytes at I after a decimal store that fits, as numbers. -/
theorem toNat_readByte_of_exec_ldBVx {x : Reg} {s t : State} (h : s.mem.wf = true)
    (hb : s.i.toNat + 3 ≤ 4096) (e : exec (.ldBVx x) s = .next t) :
    (t.readByte s.i.toNat).toNat = (s.readV x).toNat / 100 ∧
      (t.readByte (s.i.toNat + 1)).toNat = (s.readV x).toNat / 10 % 10 ∧
      (t.readByte (s.i.toNat + 2)).toNat = (s.readV x).toNat % 10 := by
  have hbyte := readByte_of_exec_ldBVx h hb e
  refine ⟨?_, ?_, ?_⟩ <;> rw [hbyte] <;> simp

/-- Settles O24: the bounds are those of the fault table, and the digits add up to the number. -/
theorem decimalStoreWritesThreeDigits : Obligations.DecimalStoreWritesThreeDigits := by
  refine ⟨fun x => by simp [decode, decodeWord, decodeFamilyF], fun x s h hb => ?_,
    fun x s hb => exec_of_faultIn_eq_memoryBounds (if_pos hb)⟩
  have e := exec_ldBVx_of_faultIn_eq_none (s := s) (x := x) (if_neg (by omega))
  obtain ⟨hundreds, tens, ones⟩ := toNat_readByte_of_exec_ldBVx h hb e
  have hv := (s.readV x).isLt
  exact ⟨_, e, storesAtI_writeBytes s (decimalDigits (s.readV x)), hundreds, tens, ones, by omega, by omega⟩

/-- After a register store that fits, each stored register stands at its place from I on. -/
theorem readByte_add_of_exec_ldMemVx {x k : Reg} {s t : State} (h : s.mem.wf = true)
    (hb : s.i.toNat + x.val ≤ 4095) (e : exec (.ldMemVx x) s = .next t) (hk : k.val ≤ x.val) :
    t.readByte (s.i.toNat + k.val) = s.readV k := by
  rw [readByte_of_exec_ldMemVx h hb e, dif_pos (by omega)]
  simp only [Nat.add_sub_cancel_left]

/-- Settles O25: the bounds are those of the fault table, and the store is of the registers up to x. -/
theorem registerStoreCopiesRegistersToMemory : Obligations.RegisterStoreCopiesRegistersToMemory := by
  refine ⟨fun x => by simp [decode, decodeWord, decodeFamilyF], fun x s h hb => ?_,
    fun x s hb => exec_of_faultIn_eq_memoryBounds (if_pos (by omega))⟩
  have e := exec_ldMemVx_of_faultIn_eq_none (s := s) (x := x) (if_neg (by omega))
  exact ⟨_, e, length_regsUpTo s x ▸ storesAtI_writeBytes s (regsUpTo s x),
    fun k hk => readByte_add_of_exec_ldMemVx h hb e hk⟩

/-! ### The load at I (R147) -/

/-- Every register after a register load that fits. -/
theorem readV_of_exec_ldVxMem {x : Reg} {s t : State} (hb : s.i.toNat + x.val ≤ 4095)
    (e : exec (.ldVxMem x) s = .next t) (k : Reg) :
    t.readV k = if k.val ≤ x.val then s.readByte (s.i.toNat + k.val) else s.readV k := by
  cases (exec_ldVxMem_of_faultIn_eq_none (if_neg (by omega))).symm.trans e
  rw [State.advance_eq, State.readV_jumpTo, State.readV_loadRegs]
  split
  case isTrue hk =>
    rw [List.getD_eq_getElem _ _ (by rw [Memory.length_readBytes]; omega), Memory.getElem_readBytes]
    rfl
  case isFalse hk => exact List.getD_eq_default _ _ (by rw [Memory.length_readBytes]; omega)

/-- Settles O26: the bounds are those of the fault table, and the load writes nothing but V and PC. -/
theorem registerLoadCopiesMemoryToRegisters : Obligations.RegisterLoadCopiesMemoryToRegisters := by
  refine ⟨fun x => by simp [decode, decodeWord, decodeFamilyF], fun x s hb => ?_,
    fun x s hb => exec_of_faultIn_eq_memoryBounds (if_pos (by omega))⟩
  have e := exec_ldVxMem_of_faultIn_eq_none (s := s) (x := x) (if_neg (by omega))
  have hv := readV_of_exec_ldVxMem hb e
  exact ⟨_, e, fun k hk => (hv k).trans (if_pos hk), fun k hk => (hv k).trans (if_neg (by omega)), rfl⟩

/-! ### A store and then a load (R50, R146, R147) -/

/-- Settles O27: the load reads the bytes at I, where the store left its registers. -/
theorem storedRegistersLoadBack : Obligations.StoredRegistersLoadBack := by
  intro x s t u h hb e hmem hi
  have hb' : u.i.toNat + x.val ≤ 4095 := by rwa [hi]
  have ew := exec_ldVxMem_of_faultIn_eq_none (s := u) (x := x) (if_neg (by omega))
  refine ⟨_, ew, fun k => ?_⟩
  rw [readV_of_exec_ldVxMem hb' ew]
  split
  case isTrue hk => rw [State.readByte, hmem, hi]; exact readByte_add_of_exec_ldMemVx h hb e hk
  case isFalse => rfl

end Sys2Proof.Machine
end

/-! Proofs of the family 43_external_and_unknown: the placeholders and the event record (R160 to R164),
UNKNOWN words (R165) and the walk through empty memory (R44, R165). -/
section

namespace Sys2Proof.Machine

/-! ### The event record (R160) -/

/-- The event an instruction emits on `ext_req`: one for each placeholder, none for any other. -/
def requestOf : Instr → Option ExtReq
  | .cls => some .clearScreen
  | .drw x y n => some (.drawSprite x y n)
  | .ldVxK x => some (.waitKey x)
  | .ldFVx x => some (.digitAddress x)
  | _ => none

/-- An instruction with an event is a placeholder: it emits the event, moves PC and does nothing else. -/
theorem exec_of_requestOf_eq_some {i : Instr} {r : ExtReq} (hr : requestOf i = some r) (s : State) :
    exec i s = .next { s with pc := s.pc + 2, extReq := s.extReq ++ [r] } := by
  cases i with
  | cls | drw _ _ _ | ldVxK _ | ldFVx _ => cases hr; rfl
  | _ => cases hr

/-- An instruction without an event neither reads nor writes the record: it does the same whatever the
record holds. -/
theorem exec_withExtReq_of_requestOf_eq_none {i : Instr} {s t : State} (hr : requestOf i = none)
    (e : exec i s = .next t) (events : List ExtReq) :
    exec i { s with extReq := events } = .next { t with extReq := events } := by
  by_cases hf : i.faultIn s = .none
  case neg =>
    cases (exec_of_faultIn_ne hf).symm.trans e
    exact exec_of_faultIn_ne (s := { s with extReq := events }) hf
  cases i with
  | cls | drw _ _ _ | ldVxK _ | ldFVx _ => cases hr
  | call nnn =>
    obtain ⟨_, e'⟩ := exec_call_of_faultIn_eq_none hf
    cases e'.symm.trans e
    obtain ⟨_, er⟩ := exec_call_of_faultIn_eq_none (s := { s with extReq := events }) hf
    exact er
  | ret =>
    obtain ⟨_, e'⟩ := exec_ret_of_faultIn_eq_none hf
    cases e'.symm.trans e
    obtain ⟨_, er⟩ := exec_ret_of_faultIn_eq_none (s := { s with extReq := events }) hf
    exact er
  | ldBVx x =>
    cases (exec_ldBVx_of_faultIn_eq_none hf).symm.trans e
    exact exec_ldBVx_of_faultIn_eq_none (s := { s with extReq := events }) hf
  | ldMemVx x =>
    cases (exec_ldMemVx_of_faultIn_eq_none hf).symm.trans e
    exact exec_ldMemVx_of_faultIn_eq_none (s := { s with extReq := events }) hf
  | ldVxMem x =>
    cases (exec_ldVxMem_of_faultIn_eq_none hf).symm.trans e
    exact exec_ldVxMem_of_faultIn_eq_none (s := { s with extReq := events }) hf
  | _ => cases e; rfl

/-- With any other record before it, an instruction does the same and appends its own event. -/
theorem exec_withExtReq {i : Instr} {s t : State} (e : exec i s = .next t) (before : List ExtReq) :
    exec i { s with extReq := before } =
      .next { t with extReq := before ++ (requestOf i).toList } := by
  cases hr : requestOf i with
  | none =>
    rw [Option.toList_none, List.append_nil]
    exact exec_withExtReq_of_requestOf_eq_none hr e before
  | some r =>
    cases (exec_of_requestOf_eq_some hr s).symm.trans e
    exact exec_of_requestOf_eq_some hr { s with extReq := before }

/-- With any other record before it, a step does the same and appends the same events, one at most: the
fetch does not read the record. -/
theorem step_withExtReq {s t : State} (e : step s = .next t) :
    ∃ out : List ExtReq, out.length ≤ 1 ∧ ∀ before,
      step { s with extReq := before } = .next { t with extReq := before ++ out } := by
  rcases step_cases s with ⟨hf, hpc, e'⟩ | ⟨hf, hpc, e'⟩ | ⟨-, e'⟩
  · rw [e'] at e
    exact ⟨_, Option.length_toList_le, fun before =>
      (step_runs (s := { s with extReq := before }) hf hpc).trans (exec_withExtReq e before)⟩
  · cases e'.symm.trans e
    refine ⟨[], Nat.zero_le _, fun before => ?_⟩
    rw [List.append_nil]
    exact step_fetchFault (s := { s with extReq := before }) hf hpc
  · cases e'.symm.trans e

/-- Settles O46: the events a step appends do not depend on the record, so with the state's own record it
appends the same. -/
theorem requestsAreOutputOnly : Obligations.RequestsAreOutputOnly := by
  intro s t e
  obtain ⟨out, hlen, hout⟩ := step_withExtReq e
  have ht : t = { t with extReq := s.extReq ++ out } := Host.Outcome.next.inj (e.symm.trans (hout s.extReq))
  exact ⟨out, congrArg State.extReq ht, hlen, hout⟩

/-! ### Placeholders and UNKNOWN (R160 to R165) -/

/-- Settles O31: each of the four has an event. -/
theorem placeholdersOnlyEmitARequest : Obligations.PlaceholdersOnlyEmitARequest :=
  ⟨fun a => by simp [decode, decodeWord, decodeFamily0], fun x y n => by simp [decode, decodeWord],
    fun x => by simp [decode, decodeWord, decodeFamilyF],
    exec_of_requestOf_eq_some rfl, fun _ _ _ => exec_of_requestOf_eq_some rfl,
    fun _ => exec_of_requestOf_eq_some rfl, fun _ => exec_of_requestOf_eq_some rfl⟩

/-- Settles O32: a word that selects no row is one that decodes to UNKNOWN. -/
theorem unknownOnlyAdvancesPc : Obligations.UnknownOnlyAdvancesPc :=
  ⟨fun op => (decodeWord_eq_unknown_iff_selects op).2, exec_unknown⟩

/-! ### The walk through empty memory (R44, R165) -/

/-- The opcode word 0x0000 is UNKNOWN, so a step where PC addresses it only moves PC. -/
theorem step_of_zero_bytes {s : State} (hf : s.fault = .none) (hpc : s.pc.toNat ≤ 0xFFE)
    (h₁ : s.readByte s.pc.toNat = 0x00) (h₂ : s.readByte (s.pc.toNat + 1) = 0x00) :
    step s = .next { s with pc := s.pc + 2 } := by
  have hd : decode 0x00 0x00 = .unknown := by decide
  rw [step_runs hf hpc, h₁, h₂, hd]
  exact exec_unknown s

/-- One more step at the end of a run. -/
theorem run_succ_of_run {M : Host.Core} {k : Nat} {s t : M.State} (h : M.run k s = .next t) :
    M.run (k + 1) s = M.step t := by
  induction k generalizing s with
  | zero => cases h; cases hm : M.step t <;> simp only [Host.Core.run, hm]
  | succ k ih =>
    rw [Host.Core.run] at h ⊢
    split at h
    case h_1 => exact ih h
    all_goals cases h

/-- Reset memory reads as 0x00 everywhere, so each step of the walk only moves PC. -/
theorem run_reset {k : Nat} (hk : k ≤ 1792) :
    core.run k core.reset = .next { State.reset with pc := BitVec.ofNat 16 (0x200 + 2 * k) } := by
  induction k with
  | zero => rfl
  | succ k ih =>
    have hpc : (BitVec.ofNat 16 (0x200 + 2 * k)).toNat ≤ 0xFFE := by
      rw [BitVec.toNat_ofNat]; omega
    have hnext : BitVec.ofNat 16 (0x200 + 2 * k) + 2 = BitVec.ofNat 16 (0x200 + 2 * (k + 1)) :=
      (BitVec.ofNat_add ..).symm
    rw [run_succ_of_run (ih (by omega)), ← hnext]
    exact step_of_zero_bytes (s := { State.reset with pc := _ }) rfl hpc rfl rfl

/-- Settles O33: the 1793rd step fetches at 0x1000, where the walk has ended. -/
theorem emptyMemoryWalksToTheTopAndFaults : Obligations.EmptyMemoryWalksToTheTopAndFaults := by
  refine ⟨fun _ => step_of_zero_bytes, fun _ => run_reset, ?_⟩
  rw [run_succ_of_run (run_reset le_rfl)]
  exact step_fetchFault (s := { State.reset with pc := 0x1000 }) rfl (by decide)

end Sys2Proof.Machine
end

/-! Proofs of the family 60_exceptions: the faults (R170, R173), the step (R171), the halted core (R175), and
the driver's operations between steps (R183 to R188). -/
section

namespace Sys2Proof.Machine

/-! ### Which fault a step raises, and what it leaves alone (R170 to R173) -/

theorem exists_next_of_exec (i : Instr) (s : State) : ∃ t, exec i s = .next t := by
  by_cases hf : i.faultIn s = .none
  · obtain ⟨t, e, -⟩ := exec_next_of_faultIn_eq_none hf
    exact ⟨t, e⟩
  · exact ⟨_, exec_of_faultIn_ne hf⟩

/-- With the latch clear before it, an instruction leaves in the latch what the table says. -/
theorem fault_of_exec {i : Instr} {s t : State} (hs : s.fault = .none) (e : exec i s = .next t) :
    t.fault = i.faultIn s := by
  by_cases hf : i.faultIn s = .none
  · obtain ⟨u, e', hu⟩ := exec_next_of_faultIn_eq_none hf
    cases e'.symm.trans e
    rw [hu, hs, hf]
  · cases (exec_of_faultIn_ne hf).symm.trans e
    rfl

/-- Settles O35: the step of an unfaulted core runs an instruction or takes the fetch fault. -/
theorem everyInstructionGivesANextState : Obligations.EveryInstructionGivesANextState := by
  refine ⟨exists_next_of_exec, fun s => ⟨fun hf => ?_, fun ⟨_, e⟩ => fault_none_of_step e⟩⟩
  rcases step_cases s with ⟨-, -, e⟩ | ⟨-, -, e⟩ | ⟨hne, -⟩
  · rw [e]
    exact exists_next_of_exec _ s
  · exact ⟨_, e⟩
  · exact absurd hf hne

/-- Settles O37: a latch that the executed instruction sets is the table's fault for it. -/
theorem faultsChangeNothingButTheLatch : Obligations.FaultsChangeNothingButTheLatch := by
  intro s t e ht
  rcases step_cases s with ⟨hf, -, e'⟩ | ⟨-, -, e'⟩ | ⟨-, e'⟩
  · rw [e'] at e
    rw [fault_of_exec hf e] at ht
    cases (exec_of_faultIn_ne ht).symm.trans e
    rfl
  · cases e'.symm.trans e
    rfl
  · cases e'.symm.trans e

/-- Settles O36: the fetch fault, or the table's fault for the instruction; PC and I by O37. -/
theorem faultsAreExactlyThoseOfTheTable : Obligations.FaultsAreExactlyThoseOfTheTable := by
  refine ⟨⟨rfl, rfl, rfl, rfl⟩, fun s t e => ⟨?_, fun ht => ?_⟩⟩
  · rcases step_cases s with ⟨hf, hpc, e'⟩ | ⟨-, hpc, e'⟩ | ⟨-, e'⟩
    · rw [if_neg (by omega)]
      exact fault_of_exec hf (e'.symm.trans e)
    · cases e'.symm.trans e
      rw [if_pos hpc]
    · cases e'.symm.trans e
  · rw [faultsChangeNothingButTheLatch s t e ht]
    exact ⟨rfl, rfl⟩

/-! ### The step as the driver sees it (R171, R175) -/

theorem drive_step_of_next {s t : State} (e : step s = .next t) :
    drive s .step = (t, if t.fault = .none then .ok else .fault t.fault) := by
  rw [drive, State.driveStep, e]

theorem drive_step_of_halted {s : State} (hf : s.fault ≠ .none) : drive s .step = (s, .halted) := by
  rw [drive, State.driveStep, step_halted hf]

/-- Settles O34: the three cases of the step, and what the driver makes of them. -/
theorem stepRunsTheDecodedInstruction : Obligations.StepRunsTheDecodedInstruction :=
  ⟨fun _ => step_runs, fun _ => step_fetchFault, fun _ _ => drive_step_of_next,
    fun _ => drive_step_of_halted⟩

/-! ### What the driver's calls leave alone (R175, R187, R188) -/

/-- From `s` to `t` at most memory, the timers and the keys changed: what the driver may write between
steps. -/
def DiffersInHostState (s t : State) : Prop :=
  t = { s with mem := t.mem, dt := t.dt, st := t.st, keys := t.keys }

theorem DiffersInHostState.refl (s : State) : DiffersInHostState s s := rfl

theorem DiffersInHostState.trans {s t u : State} (hst : DiffersInHostState s t)
    (htu : DiffersInHostState t u) : DiffersInHostState s u := by
  rw [DiffersInHostState] at hst htu
  refine htu.trans ?_
  rw [hst]

theorem DiffersInHostState.core_eq {s t : State} (h : DiffersInHostState s t) :
    t.fault = s.fault ∧ t.v = s.v ∧ t.pc = s.pc ∧ t.i = s.i ∧ t.sp = s.sp ∧ t.stack = s.stack := by
  rw [DiffersInHostState] at h
  rw [h]
  exact ⟨rfl, rfl, rfl, rfl, rfl, rfl⟩

theorem differsInHostState_drive (c : DriverCall) (s : State) (hstep : c ≠ .step) (hreset : c ≠ .reset) :
    DiffersInHostState s (drive s c).1 := by
  cases c with
  | step => exact absurd rfl hstep
  | reset => exact absurd rfl hreset
  | load addr bs =>
    refine State.doneOr_of_ok (.refl s) fun t e => ?_
    obtain ⟨-, rfl⟩ := State.load_eq_ok e
    rfl
  | disasm start stop => rw [drive]; split <;> rfl
  | keySet k pressed =>
    refine State.doneOr_of_ok (.refl s) fun t e => ?_
    obtain ⟨_, rfl⟩ := State.keySet_eq_ok e
    rfl
  | dtSet _ | stSet _ | dtGet | stGet | readOut => rfl

/-- Settles O54, by the kind of call. -/
theorem hostOperationsLeaveTheCoreRegistersAlone : Obligations.HostOperationsLeaveTheCoreRegistersAlone :=
  differsInHostState_drive

/-- On a halted core a step changes nothing, so without a reset only host operations change anything. -/
theorem differsInHostState_driveAll_of_halted {calls : List DriverCall} {s : State} (hf : s.fault ≠ .none)
    (hreset : DriverCall.reset ∉ calls) : DiffersInHostState s (driveAll s calls) := by
  induction calls generalizing s with
  | nil => exact .refl s
  | cons c cs ih =>
    obtain ⟨hc, hcs⟩ := List.ne_and_not_mem_of_not_mem_cons hreset
    have hone : DiffersInHostState s (drive s c).1 := by
      by_cases hstep : c = .step
      · rw [hstep, drive_step_of_halted hf]
        exact .refl s
      · exact differsInHostState_drive c s hstep (Ne.symm hc)
    obtain ⟨hfault, -⟩ := hone.core_eq
    exact hone.trans (ih (hfault ▸ hf) hcs)

/-- Settles O38, by induction on the calls. -/
theorem aHaltedCoreStaysHaltedUntilReset : Obligations.AHaltedCoreStaysHaltedUntilReset :=
  ⟨fun _ _ hf hreset => (differsInHostState_driveAll_of_halted hf hreset).core_eq,
    fun _ => drive_step_of_halted, State.hostReset_fault⟩

/-! ### Load (R183) -/

theorem State.load_ok {s : State} {addr : Nat} {bs : List Byte} (h : addr + bs.length ≤ 4096) :
    s.load addr bs = .ok { s with mem := s.mem.writeBytes addr bs } := if_pos h

theorem State.load_overflow {s : State} {addr : Nat} {bs : List Byte} (h : 4096 < addr + bs.length) :
    s.load addr bs = .error .loadOverflow := if_neg (Nat.not_le_of_lt h)

/-- Settles O51, by whether the buffer fits. -/
theorem loadCopiesTheBufferOrFails : Obligations.LoadCopiesTheBufferOrFails := by
  refine ⟨fun s addr bs hwf hb => ?_, fun s addr bs hb => ?_, fun s rom => rfl⟩
  · rw [drive, State.load_ok hb, State.doneOr]
    exact ⟨_, rfl, rfl, fun k hk => Memory.read_writeBytes_inside hwf addr bs hb hk,
      fun a ha => Memory.read_writeBytes_outside s.mem addr bs ha⟩
  · rw [drive, State.load_overflow hb, State.doneOr]

/-! ### Disassembly (R184) -/

/-- Slot number `k` of a disassembly from `a` on stands at `a + 2 * k`. -/
theorem State.getElem_disasmFrom (s : State) (a n k : Nat) (hk : k < (s.disasmFrom a n).length) :
    (s.disasmFrom a n)[k] = decode (s.readByte (a + 2 * k)) (s.readByte (a + 2 * k + 1)) := by
  induction n generalizing a k with
  | zero => exact absurd hk (Nat.not_lt_zero k)
  | succ n ih =>
    cases k with
    | zero => rfl
    | succ k =>
      simp only [State.disasmFrom, List.getElem_cons_succ]
      rw [ih, show a + 2 * (k + 1) = a + 2 + 2 * k by omega]

/-- Settles O52, by whether the range is legal. -/
theorem disassemblyDecodesEverySlot : Obligations.DisassemblyDecodesEverySlot := by
  refine ⟨fun s start stop hle hstop heven => ?_, fun s start stop hrange => ?_⟩
  · refine ⟨s.disasmFrom start ((stop - start) / 2), ?_, ?_, State.getElem_disasmFrom s start _⟩
    · rw [drive, State.disasm, if_pos ⟨hle, hstop, heven⟩]
    · rw [State.length_disasmFrom]
      omega
  · rw [drive, State.disasm, if_neg hrange]

/-! ### Keys and timers (R185, R186) -/

theorem State.keySet_ok {s : State} {k : Nat} (pressed : Bool) (h : k < 16) :
    s.keySet k pressed = .ok { s with keys := s.keys.set k pressed h } := dif_pos h

theorem State.keySet_absent {s : State} {k : Nat} (pressed : Bool) (h : 16 ≤ k) :
    s.keySet k pressed = .error .keyRange := dif_neg (Nat.not_lt_of_le h)

/-- Settles O53, by whether the key exists; each timer call is one update or one read. -/
theorem keysAndTimersAreTheDriversToSet : Obligations.KeysAndTimersAreTheDriversToSet := by
  refine ⟨fun s k p hk => ?_, fun s k p hk => ?_, fun s b => ⟨rfl, rfl, rfl, rfl⟩⟩
  · rw [drive, State.keySet_ok p hk, State.doneOr]
    exact ⟨_, rfl, rfl, Vector.getElem_set_self hk,
      fun j hj hjk => Vector.getElem_set_ne hk hj (Ne.symm hjk)⟩
  · rw [drive, State.keySet_absent p hk, State.doneOr]

end Sys2Proof.Machine
end

/-! Proofs of the family 70_reset_and_hazards: a step depends on the random byte only through `rnd` (R207). -/
section

namespace Sys2Proof.Machine

/-! ### The supply of random bytes (R132, R207) -/

/-- Every instruction but `rnd` neither reads nor counts a draw: it does the same whatever the counter holds.
Those that may fault test SP or I, and no part of the counter. -/
theorem exec_withDraws {i : Instr} {s t : State} (hrnd : ∀ x kk, i ≠ .rndVxKk x kk)
    (e : exec i s = .next t) (d : Nat) : exec i { s with draws := d } = .next { t with draws := d } := by
  by_cases hf : i.faultIn s = .none
  case neg =>
    cases (exec_of_faultIn_ne hf).symm.trans e
    exact exec_of_faultIn_ne (s := { s with draws := d }) hf
  cases i with
  | rndVxKk x kk => exact absurd rfl (hrnd x kk)
  | call nnn =>
    obtain ⟨_, e'⟩ := exec_call_of_faultIn_eq_none hf
    cases e'.symm.trans e
    obtain ⟨_, ed⟩ := exec_call_of_faultIn_eq_none (s := { s with draws := d }) hf
    exact ed
  | ret =>
    obtain ⟨_, e'⟩ := exec_ret_of_faultIn_eq_none hf
    cases e'.symm.trans e
    obtain ⟨_, ed⟩ := exec_ret_of_faultIn_eq_none (s := { s with draws := d }) hf
    exact ed
  | ldBVx x =>
    cases (exec_ldBVx_of_faultIn_eq_none hf).symm.trans e
    exact exec_ldBVx_of_faultIn_eq_none (s := { s with draws := d }) hf
  | ldMemVx x =>
    cases (exec_ldMemVx_of_faultIn_eq_none hf).symm.trans e
    exact exec_ldMemVx_of_faultIn_eq_none (s := { s with draws := d }) hf
  | ldVxMem x =>
    cases (exec_ldVxMem_of_faultIn_eq_none hf).symm.trans e
    exact exec_ldVxMem_of_faultIn_eq_none (s := { s with draws := d }) hf
  | _ => cases e; rfl

/-- Settles O47: the fetch does not read the draw counter, so the step runs the same instruction or takes the
same fetch fault. -/
theorem onlyRndDependsOnTheDraw : Obligations.OnlyRndDependsOnTheDraw := by
  intro s t e hrnd d
  rcases step_cases s with ⟨hf, hpc, e'⟩ | ⟨hf, hpc, e'⟩ | ⟨-, e'⟩
  · exact (step_runs (s := { s with draws := d }) hf hpc).trans (exec_withDraws hrnd (e'.symm.trans e) d)
  · cases e'.symm.trans e
    exact step_fetchFault (s := { s with draws := d }) hf hpc
  · cases e'.symm.trans e

end Sys2Proof.Machine
end

/-! Proofs of the family other: decoding an encoded instruction (R61 to R73), and sample words (R65 to R70). -/
section

namespace Sys2Proof.Machine

/-! ### The decoder undoes the encoder (R61 to R73, log 10) -/

theorem toNat_ofNat_of_countFits {n : Nat} (h : countFits n = true) : (BitVec.ofNat 4 n).toNat = n := by
  rw [countFits, decide_eq_true_iff] at h
  rw [BitVec.toNat_ofNat, Nat.mod_eq_of_lt h]

/-- Split by format (R61) and by the decoder's sub-table: each format's fields read back as the operands and
selectors that stand in them, and the selectors pick the decoder's arm (R65 to R69). Only an address and a
count have to fit their fields (R62). -/
theorem decodeWord_encodeWord {i : Instr} (h : i.wf = true) : decodeWord (encodeWord i) = i := by
  cases i with
  | cls | ret => simp [encodeWord, decodeWord, decodeFamily0]
  | jmp nnn | call nnn | ldI nnn | jmpV0 nnn => simp [encodeWord, decodeWord, fieldNnn_wordA _ _ h]
  | seVxKk x kk | sneVxKk x kk | ldVxKk x kk | addVxKk x kk | rndVxKk x kk | seVxVy x y | sneVxVy x y =>
    simp [encodeWord, decodeWord]
  | ldVxVy x y | orVxVy x y | andVxVy x y | xorVxVy x y | addVxVy x y | subVxVy x y | shrVx x y
  | subnVxVy x y | shlVx x y => simp [encodeWord, decodeWord, decodeFamily8]
  | drw x y n => simp [encodeWord, decodeWord, toNat_ofNat_of_countFits h]
  | skpVx x | sknpVx x => simp [encodeWord, decodeWord, decodeFamilyE]
  | ldVxDt x | ldVxK x | ldDtVx x | ldStVx x | addIVx x | ldFVx x | ldBVx x | ldMemVx x | ldVxMem x =>
    simp [encodeWord, decodeWord, decodeFamilyF]
  | unknown => rfl

/-- Settles O1: the bytes are those of the canonical word, which decodes to the instruction. -/
theorem decodingAnEncodedInstructionGivesItBack :
    Obligations.DecodingAnEncodedInstructionGivesItBack := by
  intro i rest h
  rw [encode, decodeBytes_wordBytes, decodeWord_encodeWord h]

/-- Settles O5, by evaluating the decoder on the eight words. -/
theorem sampleWordsDecode : Obligations.SampleWordsDecode := by
  unfold Obligations.SampleWordsDecode
  decide

end Sys2Proof.Machine
end
